-- ==== Sys2Proof/Word.lean ====
section
/-! DEFINITION. The two word types of the block: a buffer element (00_scope R6, "character width") and a register
(00_scope R6, "register width"), and the rounding-up division of 00_scope R8. -/

namespace Sys2Proof

/-- One element of a buffer: 8 bits, unsigned (00_scope R6, R8). -/
abbrev Byte := BitVec 8

/-- One register of the REG space: 32 bits, bit 0 least significant (00_scope R6; 20_memory R57). -/
abbrev Word := BitVec 32

/-- `ceil(a / b) = (a + b - 1) div b` on unbounded naturals (00_scope R8). -/
def ceilDiv (a b : Nat) : Nat := (a + b - 1) / b

end Sys2Proof
end

