-- ==== Sys2Proof/Syntax.lean ====
section
/-! DEFINITION. The six commands of the block, one constructor per row of spec/opcode_table.json (30_encoding R72). A
command's only explicit operands are its option bits, read as booleans (30_encoding R75). -/

namespace Sys2Proof

/-- The command set (30_encoding R72). Inputs and outputs are implicit: IN_BUF[0..IN_LEN), OUT_BUF, OUT_LEN and STATUS. -/
inductive Instr where
  /-- ENC64: Base64 encode; `c` is CHUNKED (bit 8), `u` is URLSAFE (bit 9) (40_base64 R104). -/
  | enc64 (c u : Bool)
  /-- ENC64US: URL-safe string encode (40_base64 R105). -/
  | enc64us
  /-- DEC64: Base64 decode (40_base64 R108). -/
  | dec64
  /-- ISB64: the Base64 validity predicate (42_sniffer R161). -/
  | isb64
  /-- ENCHEX: hex encode; `l` is LOWER (bit 10) (41_hex R141). -/
  | enchex (l : Bool)
  /-- DECHEX: hex decode (41_hex R142). -/
  | dechex
deriving DecidableEq, Repr

end Sys2Proof
end

