-- ==== Sys2Proof/WellFormed.lean ====
section
/-! DEFINITION. Which command words are legal (30_encoding R73), written from the rule's own formula and independently of
the decoder. The terms of `Instr` carry only booleans, so each of them is well formed by its type; what can be ill formed
is a WORD, and there is one check for each way the rule names. -/

namespace Sys2Proof

/-- The bits that must be zero in every command: 31:11 and 7:4 (30_encoding R71). -/
def reservedBitsZero (w : Word) : Bool :=
  w.extractLsb' 11 21 == 0 && w.extractLsb' 4 4 == 0

/-- OP is one of the six assigned values (30_encoding R72). -/
def opAssigned (w : Word) : Bool :=
  let op := w.extractLsb' 0 4
  op == 1 || op == 2 || op == 3 || op == 4 || op == 5 || op == 6

/-- No option bit is set that the command does not take: C and U only on ENC64, L only on ENCHEX (30_encoding R71). -/
def optionsAllowed (w : Word) : Bool :=
  let op := w.extractLsb' 0 4
  if op == 1 then w.extractLsb' 10 1 == 0
  else if op == 5 then w.extractLsb' 8 2 == 0
  else w.extractLsb' 8 3 == 0

/-- `legal(w)` of 30_encoding R73. -/
def legalWord (w : Word) : Bool :=
  reservedBitsZero w && opAssigned w && optionsAllowed w

end Sys2Proof
end

