-- ==== Sys2Proof/Decode.lean ====
section
/-! DEFINITION. The decoder of the 32-bit command word, total and rejecting by name, and after it the encoder, both
written from 30_encoding R70 to R73. There is one format and one length (R70, R81), and the word is one register value:
it has no byte order of its own (20_memory R57). -/

namespace Sys2Proof

/-- Why a word is no command. Each of them is an illegal word of 30_encoding R74 and completes with IllegalCommand. -/
inductive DecodeError where
  /-- A bit of 31:11 or 7:4 is set (30_encoding R71). -/
  | reservedBits
  /-- OP is 0x0 or 0x7 to 0xF (30_encoding R72). -/
  | reservedOp
  /-- An option bit is set on a command that does not take it (30_encoding R74). -/
  | optionBits
deriving DecidableEq, Repr

/-- The OP field, bits 3:0 (30_encoding R71). -/
def opField (w : Word) : BitVec 4 := w.extractLsb' 0 4
/-- Bits 7:4, reserved (30_encoding R71). -/
def lowReserved (w : Word) : BitVec 4 := w.extractLsb' 4 4
/-- C, CHUNKED, bit 8 (30_encoding R71). -/
def chunkedBit (w : Word) : Bool := w.getLsbD 8
/-- U, URLSAFE, bit 9 (30_encoding R71). -/
def urlSafeBit (w : Word) : Bool := w.getLsbD 9
/-- L, LOWER, bit 10 (30_encoding R71). -/
def lowerBit (w : Word) : Bool := w.getLsbD 10
/-- Bits 31:11, reserved (30_encoding R71). -/
def highReserved (w : Word) : BitVec 21 := w.extractLsb' 11 21

/-- The command a word stands for, or the reason it is illegal (30_encoding R72 to R74). -/
def decode (w : Word) : Except DecodeError Instr :=
  if highReserved w ≠ 0 ∨ lowReserved w ≠ 0 then .error .reservedBits
  else if opField w = 1 then
    if lowerBit w then .error .optionBits else .ok (.enc64 (chunkedBit w) (urlSafeBit w))
  else if opField w = 5 then
    if chunkedBit w || urlSafeBit w then .error .optionBits else .ok (.enchex (lowerBit w))
  else if opField w = 2 ∨ opField w = 3 ∨ opField w = 4 ∨ opField w = 6 then
    if chunkedBit w || urlSafeBit w || lowerBit w then .error .optionBits
    else if opField w = 2 then .ok .enc64us
    else if opField w = 3 then .ok .dec64
    else if opField w = 4 then .ok .isb64
    else .ok .dechex
  else .error .reservedOp

/-- The bit pattern of 30_encoding R71, bit 31 on the left: twenty-one zeros, L, U, C, four zeros, OP. -/
def packWord (op : BitVec 4) (c u l : Bool) : Word :=
  (0 : BitVec 21) ++ BitVec.ofBool l ++ BitVec.ofBool u ++ BitVec.ofBool c ++ (0 : BitVec 4) ++ op

/-- The word of a command (30_encoding R72, R79). -/
def encode : Instr → Word
  | .enc64 c u => packWord 1 c u false
  | .enc64us   => packWord 2 false false false
  | .dec64     => packWord 3 false false false
  | .isb64     => packWord 4 false false false
  | .enchex l  => packWord 5 false false l
  | .dechex    => packWord 6 false false false

/-- The instruction the decoder reads from the `nbits` low bits of `w`, numbered as spec/opcode_table.json numbers them.
The one command word is 32 bits and bit 0 is the least significant bit of it (30_encoding R70, 20_memory R57). -/
def decodeTableWord (nbits w : Nat) : Option Instr :=
  (decode (BitVec.ofNat 32 (w % 2 ^ nbits))).toOption

end Sys2Proof
end

