-- ==== Sys2Proof/Config.lean ====
section
/-! DEFINITION. What an implementation fixes and the values the spec leaves open. The opaque constants have no body: no
proof can use a value of them, so a statement that mentions one holds for every value. -/

namespace Sys2Proof

/-- The byte that position `i` of IN_BUF holds after the reset whose draw has the number `n`, until a host writes it
(70_reset_and_hazards R213, "each is a `draw`"). Free value, log entry 3. -/
opaque Config.inByte (n i : Nat) : Byte

/-- The byte that position `i` of OUT_BUF holds where the spec leaves it unspecified, for the draw with the number `n`
made at a reset (R213), at a success completion beyond OUT_LEN (R220) or at an error completion (60_exceptions R183).
Free value, log entry 4. -/
opaque Config.outByte (n i : Nat) : Byte

/-- The byte that the host read of OUT_BUF with the draw number `n` returns while BUSY = 1 (70_reset_and_hazards R219,
20_memory R59 "a fresh `draw` each time"). Free value, log entry 5. -/
opaque Config.busyByte (n : Nat) : Byte

/-- REG_BASE, where the platform places the register space (00_scope R6, 20_memory R60). OPEN, log entry 10. -/
opaque Config.regBase : Nat
/-- IN_BASE, where the platform places the input buffer (00_scope R6, 20_memory R60). OPEN, log entry 10. -/
opaque Config.inBase : Nat
/-- OUT_BASE, where the platform places the output buffer (00_scope R6, 20_memory R60). OPEN, log entry 10. -/
opaque Config.outBase : Nat

/-- DESIGN CHOICE (log entry 2, unsafe): the IN_CAP of `State.reset`, the configuration of 95_test_vectors section 3.
IN_CAP is OPEN (00_scope R6); every statement but those about `State.reset` itself is for any well-formed capacity. -/
def Config.resetInCap : Word := 64
/-- DESIGN CHOICE (log entry 2, unsafe): the OUT_CAP of `State.reset`, the configuration of 95_test_vectors section 3. -/
def Config.resetOutCap : Word := 128

end Sys2Proof
end

