-- ==== Sys2Proof/Machine/State.lean ====
section
/-! DEFINITION. The state of the block as plain data (10_state), the agenda of steps to come (00_scope R11, 20_memory
R62), the reasons a step can stop, and the state after reset (10_state R40). -/

namespace Sys2Proof.Machine

/-- A buffer: the bytes that are defined, by rising index (20_memory R50, R55). An index that is not listed holds no
defined byte and reads as a free value; `State.inByte` and `State.outByte` say which. -/
abbrev Memory := List Host.Cell

/-- The error codes the block can produce (60_exceptions R180); `ErrCode.code` gives their numbers. The reserved codes
4 to 7 and 10 to 15 are never produced and have no constructor (log entry 8). -/
inductive ErrCode where
  /-- 0: the command succeeded. -/
  | success
  /-- 1: a character outside the expected alphabet (DEC64, DECHEX). -/
  | invalidCharacter
  /-- 2: a length incompatible with the codec's quantum (DEC64, DECHEX). -/
  | invalidLength
  /-- 3: Base64 padding out of place or in an inconsistent count (DEC64). -/
  | malformedPadding
  /-- 8: the command word is not legal (60_exceptions R181). -/
  | illegalCommand
  /-- 9: IN_LEN > IN_CAP (60_exceptions R182). -/
  | lengthRange
deriving DecidableEq, Repr

/-- The fields of the STATUS register (10_state R24). Bits 31:9 are reserved and read as zero; `Status.toWord` is the
register as a host reads it. -/
structure Status where
  /-- Bit 0: a command is pending. -/
  busy : Bool
  /-- Bit 1: the most recently accepted command has completed. -/
  done : Bool
  /-- Bit 2: the most recent completion was an error. -/
  err : Bool
  /-- Bit 3: the boolean result of the most recent ISB64. -/
  result : Bool
  /-- Bits 7:4: the error code of the most recent completion. -/
  errCode : ErrCode
  /-- Bit 8: sticky, a host wrote CMD, IN_LEN or IN_BUF while BUSY = 1. -/
  coll : Bool
deriving DecidableEq, Repr

/-- The width of a register access narrower than a word, which the block does not admit (20_memory R52). -/
inductive NarrowWidth where
  | bits8
  | bits16
deriving DecidableEq, Repr

/-- What a host can ask of the block: the five primitives of 20_memory R51, and after them the accesses that R52 and R54
say are not admitted, which the model gives no effect. -/
inductive HostAccess where
  /-- `HostRegRead(off)`. -/
  | regRead (off : Nat)
  /-- `HostRegWrite(off, v)`. -/
  | regWrite (off : Nat) (v : Word)
  /-- `HostInRead(i)`. -/
  | inRead (i : Nat)
  /-- `HostInWrite(i, b)`. -/
  | inWrite (i : Nat) (b : Byte)
  /-- `HostOutRead(i)`. -/
  | outRead (i : Nat)
  /-- An 8- or 16-bit register read: not admitted (20_memory R52). -/
  | regReadNarrow (width : NarrowWidth) (off : Nat)
  /-- An 8- or 16-bit register write: not admitted (20_memory R52). -/
  | regWriteNarrow (width : NarrowWidth) (off : Nat) (v : Word)
  /-- A host store aimed at OUT: not admitted (20_memory R54). -/
  | outWrite (i : Nat) (b : Byte)
deriving DecidableEq, Repr

/-- One entry of the total order of 20_memory R62: whose step is next. -/
inductive Event where
  /-- Host number `id` performs an access (00_scope R11(a)). -/
  | host (id : Nat) (access : HostAccess)
  /-- The engine is given a slot; its step is enabled exactly when BUSY = 1 (00_scope R11(b)). -/
  | engine
  /-- The platform asserts the reset input (70_reset_and_hazards R210). -/
  | reset
deriving DecidableEq, Repr

/-- The value a host read returned. -/
inductive ReadValue where
  | word (v : Word)
  | byte (b : Byte)
deriving DecidableEq, Repr

/-- The whole machine: the registers of 10_state R22, the two buffers of R30 and R31, and the model's own fields
(INVENTORY.md, '## State'; log entries 1, 6 and 7). -/
structure State where
  /-- CMD (10_state R23). -/
  cmd : Word
  /-- STATUS (10_state R24). -/
  status : Status
  /-- IN_LEN (10_state R25). -/
  inLen : Word
  /-- OUT_LEN (10_state R26). -/
  outLen : Word
  /-- INCAP, the constant IN_CAP (10_state R27). -/
  inCap : Word
  /-- OUTCAP, the constant OUT_CAP (10_state R28). -/
  outCap : Word
  /-- IN_BUF: the bytes hosts have written since reset (10_state R30). -/
  inBuf : Memory
  /-- Model's own: the number of the draw that IN_BUF's unwritten bytes come from. -/
  inStamp : Nat
  /-- OUT_BUF: the bytes the latest success completion wrote (10_state R31). -/
  outBuf : Memory
  /-- Model's own: the number of the draw that OUT_BUF's undefined bytes come from. -/
  outStamp : Nat
  /-- Model's own: the number of the next draw. -/
  nextDraw : Nat
  /-- Model's own: the steps to come, oldest first; it stands for the hosts, the platform and T_DONE. -/
  agenda : List Event
  /-- Model's own: the latest value a host read returned, with the host's number. -/
  lastRead : Option (Nat × ReadValue)
deriving DecidableEq, Repr

/-- Why a step stops with a fault: a host access that is not admitted (20_memory R51). Each is raised by `hostAccess`,
and each is safe: the spec itself gives the access no effect and calls it a fault (93_implementation_defined). -/
inductive Fault where
  /-- A register access at an offset above 0xFC; raised by register reads and writes; safe. -/
  | regOutOfSpace
  /-- A register access at an offset that is not a multiple of 4; raised by register reads and writes; safe. -/
  | regUnaligned
  /-- An 8- or 16-bit register access; raised by the narrow register accesses; safe. -/
  | regNarrow
  /-- An IN index at or beyond IN_CAP; raised by IN reads and writes; safe. -/
  | inOutOfSpace
  /-- An OUT index at or beyond OUT_CAP; raised by OUT reads; safe. -/
  | outOutOfSpace
  /-- A host write to OUT, for which no primitive exists; raised by it; safe. -/
  | outWriteNotAdmitted
deriving DecidableEq, Repr

/-- Why a step is refused. -/
inductive Refusal where
  /-- An instruction without a meaning yet; raised by no arm of this model; safe. -/
  | notModelled (mnemonic : String)
  /-- IN_CAP = 0 or OUT_CAP < OUTMAX(IN_CAP); raised by `step`; safe: 00_scope R7 says a model must refuse it. -/
  | illFormedConfig
deriving DecidableEq, Repr

/-- STATUS after reset: 0x00000000 (10_state R40). -/
def Status.reset : Status :=
  { busy := false, done := false, err := false, result := false, errCode := .success, coll := false }

/-- The block just after reset with the given capacities (10_state R40, 70_reset_and_hazards R211, R213): a model takes
the OPEN parameters as arguments (00_scope R6). -/
def State.resetWith (inCap outCap : Word) : State :=
  { cmd := 0, status := Status.reset, inLen := 0, outLen := 0, inCap := inCap, outCap := outCap,
    inBuf := [], inStamp := 0, outBuf := [], outStamp := 0, nextDraw := 1, agenda := [], lastRead := none }

/-- The block just after reset, in the configuration of log entry 2, with nothing asked of it yet. -/
def State.reset : State := State.resetWith Config.resetInCap Config.resetOutCap

end Sys2Proof.Machine
end

