-- ==== Sys2Proof/Machine/Flags.lean ====
section
/-! DEFINITION. The STATUS register: its numbers (60_exceptions R180), the word a host reads (10_state R24), its legal
values, and what acceptance, completion, an error and a collision write to it (10_state R39). -/

namespace Sys2Proof.Machine

/-- The value of ERRCODE (60_exceptions R180). -/
def ErrCode.code : ErrCode → BitVec 4
  | .success          => 0
  | .invalidCharacter => 1
  | .invalidLength    => 2
  | .malformedPadding => 3
  | .illegalCommand   => 8
  | .lengthRange      => 9

/-- STATUS as a host reads it: bit 0 BUSY, 1 DONE, 2 ERR, 3 RESULT, 7:4 ERRCODE, 8 COLL, 31:9 zero (10_state R24). -/
def Status.toWord (t : Status) : Word :=
  (0 : BitVec 23) ++ BitVec.ofBool t.coll ++ t.errCode.code ++ BitVec.ofBool t.result ++ BitVec.ofBool t.err
    ++ BitVec.ofBool t.done ++ BitVec.ofBool t.busy

/-- The legal values of STATUS (10_state R24, last paragraph); that bits 31:9 are zero and that ERRCODE is in the set of
R180 hold by the types. -/
def Status.legal (t : Status) : Bool :=
  (t.err == decide (t.errCode ≠ .success)) && (!t.busy || (!t.done && !t.err && !t.result)) && (!t.err || !t.result)

/-- STATUS after an accepted CMD write, whatever it was before: only BUSY is set (30_encoding R76). -/
def Status.accepted : Status :=
  { busy := true, done := false, err := false, result := false, errCode := .success, coll := false }

/-- What a success completion does to STATUS; COLL stays (30_encoding R78). -/
def Status.succeeded (t : Status) (r : Bool) : Status :=
  { busy := false, done := true, err := false, result := r, errCode := .success, coll := t.coll }

/-- What an error completion does to STATUS; COLL stays (60_exceptions R183). -/
def Status.failed (t : Status) (code : ErrCode) : Status :=
  { busy := false, done := true, err := true, result := false, errCode := code, coll := t.coll }

/-- What a dropped write does to STATUS: COLL is set (70_reset_and_hazards R218). -/
def Status.collided (t : Status) : Status := { t with coll := true }

end Sys2Proof.Machine
end

