-- ==== Sys2Proof/Machine/Ops.lean ====
section
/-! DEFINITION. The named operations over the buffers and registers: reading and writing a buffer in its canonical form,
the bytes a buffer holds, acceptance (30_encoding R76), success completion (R78), error completion (60_exceptions R183),
a dropped write (70_reset_and_hazards R218), reset (R211 to R213) and the configuration check (00_scope R7). -/

namespace Sys2Proof.Machine

/-! ### Buffers -/

/-- What an index that is not listed reads as: no defined byte. The buffer it belongs to then gives a free value. -/
def Memory.unlisted : Option Byte := none

/-- The defined byte at index `a`, if there is one. -/
def Memory.read : Memory → Nat → Option Byte
  | [], _ => Memory.unlisted
  | (k, b) :: m, a => if k = a then some b else Memory.read m a

/-- Defines the byte at index `a`, keeping the indices rising. -/
def Memory.write : Memory → Nat → Byte → Memory
  | [], a, b => [(a, b)]
  | (k, v) :: m, a, b =>
    if a < k then (a, b) :: (k, v) :: m
    else if a = k then (a, b) :: m
    else (k, v) :: Memory.write m a b

/-- The cells of a byte sequence laid out from index `k` on. -/
def Memory.cellsFrom : Nat → List Byte → Memory
  | _, [] => []
  | k, b :: o => (k, b) :: Memory.cellsFrom (k + 1) o

/-- The buffer that defines exactly the bytes of `o`, byte `i` at index `i` (20_memory R55). -/
def Memory.ofBytes (o : List Byte) : Memory := Memory.cellsFrom 0 o

/-- The canonical form: indices strictly rising. No entry equals what an unlisted index reads as, since that is no byte. -/
abbrev Memory.wf (m : Memory) : Prop := m.Pairwise (fun x y => x.1 < y.1)

/-- `MemRead(IN, i, 1)`: a byte a host has written since reset, or the free value of the latest reset (10_state R30,
70_reset_and_hazards R213). -/
def State.inByte (s : State) (i : Nat) : Byte :=
  match Memory.read s.inBuf i with
  | some b => b
  | none => Config.inByte s.inStamp i

/-- `OUT_BUF[i]`: a byte the latest success completion wrote, or the free value drawn at the latest completion or reset
(10_state R31, 70_reset_and_hazards R220). -/
def State.outByte (s : State) (i : Nat) : Byte :=
  match Memory.read s.outBuf i with
  | some b => b
  | none => Config.outByte s.outStamp i

/-- The command word the engine decodes: CMD (30_encoding R77). -/
def State.fetch (s : State) : Word := s.cmd

/-! ### The configuration -/

/-- OUTMAX(n), the largest output any command can produce from `n` input bytes (00_scope R7). -/
def outMax (n : Nat) : Nat :=
  let m := 4 * ceilDiv n 3
  max (2 * n) (m + 2 * ceilDiv m 76)

/-- The capacities meet 00_scope R6 and R7; their upper bound 2^32 - 1 is the registers' width. -/
def configOk (inCap outCap : Word) : Bool :=
  decide (1 ≤ inCap.toNat) && decide (outMax inCap.toNat ≤ outCap.toNat)

/-- The configuration of this state is well formed. -/
def State.configOk (s : State) : Bool := Sys2Proof.Machine.configOk s.inCap s.outCap

/-! ### Acceptance, completion, errors, collisions, reset -/

/-- Acceptance of a command word (30_encoding R76). It does not look at the word, IN_LEN or the buffers. -/
def State.accept (s : State) (v : Word) : State :=
  { s with cmd := v, outLen := 0, status := Status.accepted }

/-- Success completion `complete(o, r)` (30_encoding R78): OUT_BUF holds `o` and beyond it a fresh draw. -/
def State.complete (s : State) (o : List Byte) (r : Bool) : State :=
  { s with
    outBuf := Memory.ofBytes o, outStamp := s.nextDraw, nextDraw := s.nextDraw + 1,
    outLen := BitVec.ofNat 32 o.length, status := s.status.succeeded r }

/-- Error completion `raise CodecError(code)` (60_exceptions R183), the block's one way of taking an error: no byte of
OUT_BUF is defined. Nothing is saved and there is no return (R188). -/
def State.raise (s : State) (code : ErrCode) : State :=
  { s with
    outBuf := [], outStamp := s.nextDraw, nextDraw := s.nextDraw + 1,
    outLen := 0, status := s.status.failed code }

/-- A write that is dropped because BUSY = 1: only COLL changes (70_reset_and_hazards R218). -/
def State.collide (s : State) : State := { s with status := s.status.collided }

/-- The reset input (70_reset_and_hazards R210 to R213): every register at its reset value, a pending command abandoned,
both buffers a fresh draw. The capacities are constants; the agenda and what hosts have read are not the block's. -/
def State.resetBlock (s : State) : State :=
  { s with
    cmd := 0, status := Status.reset, inLen := 0, outLen := 0,
    inBuf := [], inStamp := s.nextDraw, outBuf := [], outStamp := s.nextDraw, nextDraw := s.nextDraw + 1 }

end Sys2Proof.Machine
end

