-- ==== Sys2Proof/Machine/Access.lean ====
section
/-! DEFINITION. The host's accesses (20_memory R50 to R59): the register map (10_state R22 to R29), the five primitives,
the accesses that are not admitted, and where a platform places the spaces (20_memory R57, R60). -/

namespace Sys2Proof.Machine

/-- `HostRegRead(off)` on an admitted offset: the register at `off`; a reserved offset reads as zero (10_state R22 to R29). -/
def State.regValue (s : State) (off : Nat) : Word :=
  if off = 0x00 then s.cmd
  else if off = 0x04 then s.status.toWord
  else if off = 0x08 then s.inLen
  else if off = 0x0C then s.outLen
  else if off = 0x10 then s.inCap
  else if off = 0x14 then s.outCap
  else 0

/-- A host write to CMD: accepted when idle (30_encoding R76), dropped with COLL set while BUSY (70 R218). -/
def State.writeCmd (s : State) (v : Word) : State := if s.status.busy then s.collide else s.accept v

/-- A host write to IN_LEN: any value is stored when idle (10_state R25), dropped with COLL set while BUSY (70 R218). -/
def State.writeInLen (s : State) (v : Word) : State := if s.status.busy then s.collide else { s with inLen := v }

/-- `HostRegWrite(off, v)` on an admitted offset: CMD and IN_LEN take it, every other offset ignores it (20_memory R52). -/
def State.regWritten (s : State) (off : Nat) (v : Word) : State :=
  if off = 0x00 then s.writeCmd v
  else if off = 0x08 then s.writeInLen v
  else s

/-- `HostInWrite(i, b)` on an admitted index: stored when idle, dropped with COLL set while BUSY (20_memory R53). -/
def State.inWritten (s : State) (i : Nat) (b : Byte) : State :=
  if s.status.busy then s.collide else { s with inBuf := Memory.write s.inBuf i b }

/-- The value of a host read reaches host `id`; nothing of the block changes (20_memory R59). -/
def State.returned (s : State) (id : Nat) (v : ReadValue) : State := { s with lastRead := some (id, v) }

/-- `HostOutRead(i)` on an admitted index: OUT_BUF[i] when idle, a fresh draw while BUSY (20_memory R54, R59; 70 R219). -/
def State.outReturned (s : State) (id i : Nat) : State :=
  if s.status.busy then
    { s.returned id (.byte (Config.busyByte s.nextDraw)) with nextDraw := s.nextDraw + 1 }
  else s.returned id (.byte (s.outByte i))

/-- Why a whole-word register access at `off` is not admitted, if it is not (20_memory R51, R52). Where both reasons
hold the model names the first: DESIGN CHOICE (log entry 9, safe), since the spec says only "fault" and names none. -/
def regFault (off : Nat) : Option Fault :=
  if 0xFC < off then some .regOutOfSpace
  else if off % 4 ≠ 0 then some .regUnaligned
  else none

/-- Why an access is not admitted, if it is not (20_memory R51, R52, R54). The spec says only "fault", so the names, and
which one is given where several reasons hold, are the model's: DESIGN CHOICE (log entry 9, safe). A narrow register
access is `regNarrow` at every offset, unaligned and out-of-space ones too, and a store to OUT is `outWriteNotAdmitted` at
every index, those at or beyond OUT_CAP too. -/
def accessFault (a : HostAccess) (s : State) : Option Fault :=
  match a with
  | .regRead off => regFault off
  | .regWrite off _ => regFault off
  | .inRead i => if i < s.inCap.toNat then none else some .inOutOfSpace
  | .inWrite i _ => if i < s.inCap.toNat then none else some .inOutOfSpace
  | .outRead i => if i < s.outCap.toNat then none else some .outOutOfSpace
  | .regReadNarrow _ _ => some .regNarrow
  | .regWriteNarrow _ _ _ => some .regNarrow
  | .outWrite _ _ => some .outWriteNotAdmitted

/-- The effect of an admitted access by host `id`. The last three forms are never admitted and have none. -/
def accessEffect (id : Nat) (a : HostAccess) (s : State) : State :=
  match a with
  | .regRead off => s.returned id (.word (s.regValue off))
  | .regWrite off v => s.regWritten off v
  | .inRead i => s.returned id (.byte (s.inByte i))
  | .inWrite i b => s.inWritten i b
  | .outRead i => s.outReturned id i
  | .regReadNarrow _ _ => s
  | .regWriteNarrow _ _ _ => s
  | .outWrite _ _ => s

/-- One host access, one indivisible step (20_memory R51, R58): its effect, or a fault when it is not admitted. -/
def hostAccess (id : Nat) (a : HostAccess) (s : State) : Host.Outcome State Fault Refusal :=
  match accessFault a s with
  | some f => .fault f
  | none => .next (accessEffect id a s)

/-! ### The platform's view (20_memory R57, R60) -/

/-- A place in one of the three spaces. -/
inductive Place where
  | reg (off : Nat)
  | inBuf (i : Nat)
  | outBuf (i : Nat)
deriving DecidableEq, Repr

/-- The address the platform gives a place: its space's base plus its offset (20_memory R60). The bases are OPEN. -/
def placeAddress : Place → Nat
  | .reg off => Config.regBase + off
  | .inBuf i => Config.inBase + i
  | .outBuf i => Config.outBase + i

/-- The byte at offset `off + k` of a register on a byte-addressed bus: bits `[8k+7:8k]` (20_memory R57). It only says
where the bits lie: an access narrower than a word is not admitted. -/
def State.regByteLane (s : State) (off k : Nat) : Byte := (s.regValue off).extractLsb' (8 * k) 8

end Sys2Proof.Machine
end

