-- ==== Sys2Proof/Machine/Rom.lean ====
section
/-! DEFINITION. The constant tables of the block (10_state R33 to R38) and the fixed parameters LINE_LEN and LINE_SEP
(00_scope R6). They are not state, not writable and unaffected by reset (10_state section 4, 70_reset_and_hazards R214). -/

namespace Sys2Proof.Machine

/-- LINE_LEN: characters per chunked Base64 line (00_scope R6). -/
def lineLen : Nat := 76

/-- LINE_SEP: CR LF (00_scope R6; decision D7). -/
def lineSep : List Byte := [0x0D, 0x0A]

/-- PAD, `=` (10_state R38). -/
def padByte : Byte := 0x3D

/-- LB = LF and CR, the line breaks the decoder ignores (10_state R38). -/
def isLineBreak (c : Byte) : Bool := c == 0x0A || c == 0x0D

/-- WS = TAB, LF, CR and SP, the whitespace the sniffer strips (10_state R38). -/
def isWhitespace (c : Byte) : Bool := c == 0x09 || c == 0x0A || c == 0x0D || c == 0x20

/-- B64_STD (10_state R34). -/
def b64Std (v : BitVec 6) : Byte :=
  let n := v.toNat
  if n ≤ 25 then BitVec.ofNat 8 (0x41 + n)
  else if n ≤ 51 then BitVec.ofNat 8 (0x61 + (n - 26))
  else if n ≤ 61 then BitVec.ofNat 8 (0x30 + (n - 52))
  else if n = 62 then 0x2B
  else 0x2F

/-- B64_URL (10_state R34). -/
def b64Url (v : BitVec 6) : Byte :=
  if v.toNat ≤ 61 then b64Std v
  else if v.toNat = 62 then 0x2D
  else 0x5F

/-- The alphabet an encode command selects: B64_URL when U = 1, else B64_STD (40_base64 R104). -/
def b64Alphabet (u : Bool) : BitVec 6 → Byte := if u then b64Url else b64Std

/-- B64VAL, the inverse of the union of both alphabets; `none` is INVALID (10_state R35). -/
def b64Val (c : Byte) : Option (BitVec 6) :=
  let n := c.toNat
  if 0x41 ≤ n ∧ n ≤ 0x5A then some (BitVec.ofNat 6 (n - 0x41))
  else if 0x61 ≤ n ∧ n ≤ 0x7A then some (BitVec.ofNat 6 (n - 0x61 + 26))
  else if 0x30 ≤ n ∧ n ≤ 0x39 then some (BitVec.ofNat 6 (n - 0x30 + 52))
  else if n = 0x2B ∨ n = 0x2D then some 62
  else if n = 0x2F ∨ n = 0x5F then some 63
  else none

/-- HEX_LO (10_state R36). -/
def hexLo (v : BitVec 4) : Byte :=
  if v.toNat ≤ 9 then BitVec.ofNat 8 (0x30 + v.toNat) else BitVec.ofNat 8 (0x61 + (v.toNat - 10))

/-- HEX_UP (10_state R36). -/
def hexUp (v : BitVec 4) : Byte :=
  if v.toNat ≤ 9 then BitVec.ofNat 8 (0x30 + v.toNat) else BitVec.ofNat 8 (0x41 + (v.toNat - 10))

/-- The case selector: HEX_LO when L = 1, HEX_UP when L = 0 (41_hex R140). -/
def hexDigit (l : Bool) : BitVec 4 → Byte := if l then hexLo else hexUp

/-- HEXVAL, case-insensitive; `none` is INVALID (10_state R37). -/
def hexVal (c : Byte) : Option (BitVec 4) :=
  let n := c.toNat
  if 0x30 ≤ n ∧ n ≤ 0x39 then some (BitVec.ofNat 4 (n - 0x30))
  else if 0x61 ≤ n ∧ n ≤ 0x66 then some (BitVec.ofNat 4 (n - 0x61 + 10))
  else if 0x41 ≤ n ∧ n ≤ 0x46 then some (BitVec.ofNat 4 (n - 0x41 + 10))
  else none

end Sys2Proof.Machine
end

