-- ==== Sys2Proof/Machine/Operands.lean ====
section
/-! DEFINITION. The implicit operand of every command, IN_BUF[0..IN_LEN), with the range check before it is read
(30_encoding R75, R77; 60_exceptions R182), the two ways a command ends (R78, R183), and the sequence helpers both the
decoder and the sniffer name (pad run, slice; 00_scope R9, R12). -/

namespace Sys2Proof.Machine

/-- What one step of the block answers. -/
abbrev Answer := Host.Outcome State Fault Refusal

/-- `in = [MemRead(IN, i, 1) for i in 0..IN_LEN)` (20_memory R61). -/
def State.input (s : State) : List Byte := (List.range s.inLen.toNat).map s.inByte

/-- The result a host may read: OUT_BUF[0..OUT_LEN) (10_state R31, 70_reset_and_hazards R220). -/
def State.output (s : State) : List Byte := (List.range s.outLen.toNat).map s.outByte

/-- IN_LEN is in range: at most IN_CAP (60_exceptions R182). -/
def State.inRange (s : State) : Bool := decide (s.inLen.toNat ≤ s.inCap.toNat)

/-- The common start of every legal command: LengthRange when IN_LEN > IN_CAP, before IN_BUF is read, and otherwise the
command on its input (30_encoding R77, 60_exceptions R182). -/
def withInput (s : State) (run : List Byte → State) : Answer :=
  if s.inRange then .next (run s.input) else .next (s.raise .lengthRange)

/-- The end of a decoding command: success with its bytes (30_encoding R78) or the error (60_exceptions R183). -/
def State.finish (s : State) : Except ErrCode (List Byte) → State
  | .ok o => s.complete o false
  | .error code => s.raise code

/-- `p`, the length of the pad run: the largest `k` such that the last `k` elements are all PAD (00_scope R12). -/
def padRun (t : List Byte) : Nat := (t.reverse.takeWhile (fun c => c == padByte)).length

/-- `t[i..j)` (00_scope R9). -/
def slice (t : List Byte) (i j : Nat) : List Byte := (t.take j).drop i

end Sys2Proof.Machine
end

