-- ==== Sys2Proof/Machine/Base64.lean ====
section
/-! DEFINITION. The Base64 unit: 6-bit grouping, padding formatter, line chunker, and the commands ENC64, ENC64US and
DEC64 (40_base64 R100 to R110). -/

namespace Sys2Proof.Machine

/-- The four 6-bit values of 24 bits, from the most significant end (40_base64 R100, 20_memory R56). -/
def sextets (v : BitVec 24) : List (BitVec 6) :=
  [v.extractLsb' 18 6, v.extractLsb' 12 6, v.extractLsb' 6 6, v.extractLsb' 0 6]

/-- B64GROUPS (40_base64 R100): four values for each whole quantum of 3 bytes, `r + 1` values for a final partial quantum
of `r` bytes with zero bits appended on the right. -/
def b64Groups : List Byte → List (BitVec 6)
  | a :: b :: c :: rest => sextets (a ++ b ++ c) ++ b64Groups rest
  | [a, b] => (sextets (a ++ b ++ (0 : BitVec 8))).take 3
  | [a] => (sextets (a ++ (0 : BitVec 16))).take 2
  | [] => []

/-- PADFMT(r): the padding that completes a final partial quantum of `r` bytes (40_base64 R101). -/
def padFmt (r : Nat) : List Byte :=
  if r = 1 then [padByte, padByte] else if r = 2 then [padByte] else []

/-- CHUNK (40_base64 R103): lines of 76 characters, each, the last included, followed by CR LF; nothing for empty text. -/
def chunk (t : List Byte) : List Byte :=
  if t.length = 0 then []
  else (List.range (ceilDiv t.length lineLen)).flatMap
    (fun k => slice t (lineLen * k) (min (lineLen * k + lineLen) t.length) ++ lineSep)

/-- The text of ENC64 before chunking: the characters of the groups, and the padding when U = 0 (40_base64 R102, R104). -/
def enc64Line (u : Bool) (input : List Byte) : List Byte :=
  (b64Groups input).map (b64Alphabet u) ++ (if u then [] else padFmt (input.length % 3))

/-- The output of ENC64 (40_base64 R104). -/
def enc64Text (c u : Bool) (input : List Byte) : List Byte :=
  if c then chunk (enc64Line u input) else enc64Line u input

/-- STRIP_LB (40_base64 R107). -/
def stripLb (input : List Byte) : List Byte := input.filter (fun c => !isLineBreak c)

/-- The bytes of a sequence of 6-bit values: three for each four of them, one or two for a final two or three, the 4 or 2
bits left over being dropped (40_base64 R108, R109). A single final value gives no byte; the checks exclude it. -/
def b64Bytes : List (BitVec 6) → List Byte
  | a :: b :: c :: d :: rest =>
    let v : BitVec 24 := a ++ b ++ c ++ d
    v.extractLsb' 16 8 :: v.extractLsb' 8 8 :: v.extractLsb' 0 8 :: b64Bytes rest
  | [a, b, c] =>
    let v : BitVec 18 := a ++ b ++ c
    [v.extractLsb' 10 8, v.extractLsb' 2 8]
  | [a, b] =>
    let v : BitVec 12 := a ++ b
    [v.extractLsb' 4 8]
  | [_] => []
  | [] => []

/-- The checks and the result of DEC64 on stripped text (40_base64 R108): check 1, check 2, checks 3a and 3b, in that
order, then the bytes of the data characters. -/
def dec64Stripped (t : List Byte) : Except ErrCode (List Byte) :=
  let p := padRun t
  let data := slice t 0 (t.length - p)
  if t.length % 4 = 1 then .error .invalidLength
  else if t.any (fun c => c != padByte && (b64Val c).isNone) then .error .invalidCharacter
  else if data.any (fun c => c == padByte) then .error .malformedPadding
  else if 0 < p ∧ (2 < p ∨ t.length % 4 ≠ 0) then .error .malformedPadding
  else .ok (b64Bytes (data.filterMap b64Val))

/-- DEC64 as a function of its input (40_base64 R108). -/
def dec64Result (input : List Byte) : Except ErrCode (List Byte) := dec64Stripped (stripLb input)

/-- ENC64 (40_base64 R104). -/
def execEnc64 (c u : Bool) (s : State) : Answer :=
  withInput s (fun input => s.complete (enc64Text c u input) false)

/-- ENC64US: ENC64 with C = 0 and U = 1 (40_base64 R105). -/
def execEnc64us (s : State) : Answer :=
  withInput s (fun input => s.complete (enc64Text false true input) false)

/-- DEC64 (40_base64 R108). -/
def execDec64 (s : State) : Answer :=
  withInput s (fun input => s.finish (dec64Result input))

end Sys2Proof.Machine
end

