-- ==== Sys2Proof/Machine/Hex.lean ====
section
/-! DEFINITION. The hex unit: nibble split, case select, and the commands ENCHEX and DECHEX (41_hex R140 to R142). -/

namespace Sys2Proof.Machine

/-- HEXPAIR: the digit of the high nibble, then that of the low nibble (41_hex R140). -/
def hexPair (l : Bool) (b : Byte) : List Byte :=
  [hexDigit l (b.extractLsb' 4 4), hexDigit l (b.extractLsb' 0 4)]

/-- The output of ENCHEX (41_hex R141). -/
def encHexText (l : Bool) (input : List Byte) : List Byte := input.flatMap (hexPair l)

/-- The bytes of a sequence of nibbles, two at a time, the first the high one (41_hex R142). A single final nibble gives
no byte; the length check excludes it. -/
def hexBytes : List (BitVec 4) → List Byte
  | a :: b :: rest => (a ++ b) :: hexBytes rest
  | [_] => []
  | [] => []

/-- DECHEX as a function of its input (41_hex R142): check 1, check 2, then the bytes. -/
def decHexResult (input : List Byte) : Except ErrCode (List Byte) :=
  if input.length % 2 = 1 then .error .invalidLength
  else if input.any (fun c => (hexVal c).isNone) then .error .invalidCharacter
  else .ok (hexBytes (input.filterMap hexVal))

/-- ENCHEX (41_hex R141). -/
def execEnchex (l : Bool) (s : State) : Answer :=
  withInput s (fun input => s.complete (encHexText l input) false)

/-- DECHEX (41_hex R142). -/
def execDechex (s : State) : Answer :=
  withInput s (fun input => s.finish (decHexResult input))

end Sys2Proof.Machine
end

