-- ==== Sys2Proof/Machine/Sniffer.lean ====
section
/-! DEFINITION. The Base64 sniffer and the command ISB64 (42_sniffer R160, R161). It shares with the Base64 unit only the
decode map B64VAL (00_scope R3). -/

namespace Sys2Proof.Machine

/-- STRIP_WS (42_sniffer R160). -/
def stripWs (input : List Byte) : List Byte := input.filter (fun c => !isWhitespace c)

/-- The predicate on stripped text: every character before the trailing pad run is in an alphabet, and a nonempty pad run
comes with a length that is a multiple of 4 (42_sniffer R161). -/
def isb64Stripped (t : List Byte) : Bool :=
  let p := padRun t
  (slice t 0 (t.length - p)).all (fun c => (b64Val c).isSome) && !(decide (0 < p) && decide (t.length % 4 ≠ 0))

/-- ISB64 as a function of its input (42_sniffer R161). -/
def isb64Result (input : List Byte) : Bool := isb64Stripped (stripWs input)

/-- ISB64: RESULT is the predicate and there is no output byte (42_sniffer R161). -/
def execIsb64 (s : State) : Answer :=
  withInput s (fun input => s.complete [] (isb64Result input))

end Sys2Proof.Machine
end

