-- ==== Sys2Proof/Machine/Dispatch.lean ====
section
/-! DEFINITION. The command dispatch of 30_encoding R77, one arm per constructor. -/

namespace Sys2Proof.Machine

def exec (i : Instr) (s : State) : Host.Outcome State Fault Refusal :=
  match i with
  | .enc64 c u => Sys2Proof.Machine.execEnc64 c u s
  | .enc64us => Sys2Proof.Machine.execEnc64us s
  | .dec64 => Sys2Proof.Machine.execDec64 s
  | .isb64 => Sys2Proof.Machine.execIsb64 s
  | .enchex l => Sys2Proof.Machine.execEnchex l s
  | .dechex => Sys2Proof.Machine.execDechex s

end Sys2Proof.Machine
end

