-- ==== Sys2Proof/Machine/Engine.lean ====
section
/-! DEFINITION. The engine's step (30_encoding R77) and one step of the whole block in the order the agenda gives
(00_scope R11, 20_memory R62, 70_reset_and_hazards R210, R217). -/

namespace Sys2Proof.Machine

/-- The engine's one step while BUSY = 1: an illegal word completes with IllegalCommand before anything is read, a legal
one runs (30_encoding R77, 60_exceptions R181). -/
def engineStep (s : State) : Answer :=
  match decode s.fetch with
  | .ok i => exec i s
  | .error _ => .next (s.raise .illegalCommand)

/-- A slot given to the engine: its step is enabled exactly when BUSY = 1 (00_scope R11); an idle block keeps all its
state (60_exceptions R194). -/
def engineSlot (s : State) : Answer := if s.status.busy then engineStep s else .next s

/-- The step an event stands for, on the state whose agenda no longer holds it. -/
def eventStep (e : Event) (s : State) : Answer :=
  match e with
  | .host id a => hostAccess id a s
  | .engine => engineSlot s
  | .reset => .next s.resetBlock

/-- One step of the block. An ill-formed configuration is refused (00_scope R7). Otherwise the agenda's first event
happens; when nothing is on the agenda the engine has the slot (weak fairness, 70_reset_and_hazards R217). -/
def blockStep (s : State) : Answer :=
  if s.configOk then
    match s.agenda with
    | [] => engineSlot s
    | e :: rest => eventStep e { s with agenda := rest }
  else .refused .illFormedConfig

/-- It is the engine's turn: a command is pending and the next slot is the engine's. -/
def State.engineTurn (s : State) : Prop := s.status.busy = true ∧ (s.agenda = [] ∨ ∃ rest, s.agenda = .engine :: rest)

/-- The state whose slot at the head of the agenda, if any, has been taken. -/
def State.slotTaken (s : State) : State := { s with agenda := s.agenda.tail }

end Sys2Proof.Machine
end

