-- ==== Sys2Proof/Machine/Step.lean ====
section
/-! DEFINITION. The step of the machine, and the state in which a given command word is the next thing the engine runs. -/

namespace Sys2Proof.Machine

/-- One step (00_scope R11): the next event of the agenda, or the engine's slot. -/
def step (s : State) : Host.Outcome State Fault Refusal := blockStep s

/-- `s` after an accepted CMD write of the word whose `nbits` low bits are `w` (30_encoding R76), with the engine's slot
next on the agenda, so that the very next step runs it. The block fetches nothing (10_state R21): a command is started
from outside, by that write (log entry 12). -/
def State.withFetchWord (s : State) (nbits w : Nat) : State :=
  { s.accept (BitVec.ofNat 32 (w % 2 ^ nbits)) with agenda := .engine :: s.agenda }

end Sys2Proof.Machine
end

