-- ==== Sys2Proof/Machine/Script.lean ====
section
/-! DEFINITION. The command spellings of 30_encoding R79 and the host script of R80: each line expands to the host
primitives it executes, in order. `for`, `if` and whether `poll` reads once more are the host's own program (R80, "These
constructs are the host's program, not the block's"; log entry 15). -/

namespace Sys2Proof.Machine

/-- The spelling of a command (30_encoding R79). -/
def spelling : Instr → String
  | .enc64 false false => "ENC64"
  | .enc64 true false  => "ENC64.C"
  | .enc64 false true  => "ENC64.U"
  | .enc64 true true   => "ENC64.CU"
  | .enc64us           => "ENC64US"
  | .dec64             => "DEC64"
  | .isb64             => "ISB64"
  | .enchex false      => "ENCHEX"
  | .enchex true       => "ENCHEX.L"
  | .dechex            => "DECHEX"

/-- Every command, in the order of the table of 30_encoding R79. -/
def allCommands : List Instr :=
  [.enc64 false false, .enc64 true false, .enc64 false true, .enc64 true true, .enc64us, .dec64, .isb64,
   .enchex false, .enchex true, .dechex]

/-- The command a spelling stands for; `ENC64.UC` is not a spelling (30_encoding R79). -/
def commandOf (name : String) : Option Instr := allCommands.find? (fun i => spelling i == name)

/-- What `run` and a written command word may name: a spelling's command, or `.word` with any word (30_encoding R79). -/
inductive CommandText where
  | command (i : Instr)
  | word (w : Word)
deriving DecidableEq, Repr

/-- `word(M)` (30_encoding R80). -/
def wordOf : CommandText → Word
  | .command i => encode i
  | .word w => w

/-- The registers a script line can name (30_encoding R80). -/
inductive RegName where
  | cmd | status | inLen | outLen | inCap | outCap
deriving DecidableEq, Repr

/-- `off(REG)` (10_state R22). -/
def regOffset : RegName → Nat
  | .cmd => 0x00
  | .status => 0x04
  | .inLen => 0x08
  | .outLen => 0x0C
  | .inCap => 0x10
  | .outCap => 0x14

/-- One line of a host script (30_encoding R80). `poll` and `run` say how many STATUS reads returned BUSY = 1 before the
one that did not. -/
inductive ScriptLine where
  | wr (r : RegName) (v : Word)
  | rd (r : RegName)
  | wb (i : Nat) (b : Byte)
  | rb (i : Nat)
  | ws (text : List Byte)
  | poll (busyReads : Nat)
  | run (m : CommandText) (busyReads : Nat)
deriving DecidableEq, Repr

/-- `wb IN[k], text[k]` for each `k` from `k0` on (30_encoding R80). -/
def writeText : Nat → List Byte → List HostAccess
  | _, [] => []
  | k, b :: t => .inWrite k b :: writeText (k + 1) t

/-- The STATUS reads of a `poll` (30_encoding R80). -/
def pollReads (busyReads : Nat) : List HostAccess := List.replicate (busyReads + 1) (.regRead (regOffset .status))

/-- The primitives a script line executes, in order (30_encoding R80). -/
def expandLine : ScriptLine → List HostAccess
  | .wr r v => [.regWrite (regOffset r) v]
  | .rd r => [.regRead (regOffset r)]
  | .wb i b => [.inWrite i b]
  | .rb i => [.outRead i]
  | .ws text => writeText 0 text ++ [.regWrite (regOffset .inLen) (BitVec.ofNat 32 text.length)]
  | .poll n => pollReads n
  | .run m n => .regWrite (regOffset .cmd) (wordOf m) :: pollReads n

/-- A whole script's accesses by host `id`, as events of the agenda. -/
def scriptEvents (id : Nat) (lines : List ScriptLine) : List Event :=
  (lines.flatMap expandLine).map (Event.host id)

/-- The value of one hexadecimal digit of a `ws` escape (30_encoding R80). -/
def escapeDigit (c : Char) : Option (BitVec 4) :=
  if '0' ≤ c ∧ c ≤ '9' then some (BitVec.ofNat 4 (c.toNat - '0'.toNat))
  else if 'A' ≤ c ∧ c ≤ 'F' then some (BitVec.ofNat 4 (c.toNat - 'A'.toNat + 10))
  else if 'a' ≤ c ∧ c ≤ 'f' then some (BitVec.ofNat 4 (c.toNat - 'a'.toNat + 10))
  else none

/-- The bytes of a `ws` text: the escapes `\r`, `\n` and `\xHH`, and every other character its ASCII code (30_encoding
R80, 10_state R33). A character outside ASCII or another escape is no text. -/
def textBytes : List Char → Option (List Byte)
  | [] => some []
  | '\\' :: 'r' :: t => (textBytes t).map (fun r => 0x0D :: r)
  | '\\' :: 'n' :: t => (textBytes t).map (fun r => 0x0A :: r)
  | '\\' :: 'x' :: h :: l :: t =>
    match escapeDigit h, escapeDigit l, textBytes t with
    | some hi, some lo, some r => some ((hi ++ lo) :: r)
    | _, _, _ => none
  | c :: t =>
    if c = '\\' ∨ 0x7F < c.toNat then none else (textBytes t).map (fun r => BitVec.ofNat 8 c.toNat :: r)

end Sys2Proof.Machine
end

