-- ==== Sys2Proof/Safety.lean ====
section
/-! DEFINITION. What the block keeps true of its state in every run: the invariant `Inv`, assembled from 00_scope R6 and
R7, 10_state R24, R26, R30 and R31, and 70_reset_and_hazards R219 and R220; and the agendas that stop with no fault. -/

namespace Sys2Proof.Machine

/-- The shape every reachable state has. -/
structure Inv (s : State) : Prop where
  /-- The capacities are well formed (00_scope R6, R7). -/
  config : s.configOk = true
  /-- STATUS holds one of its legal values (10_state R24). -/
  status : s.status.legal = true
  /-- IN_BUF is in canonical form. -/
  inForm : Memory.wf s.inBuf
  /-- IN_BUF lists only indices below IN_CAP (10_state R30). -/
  inBound : ∀ c ∈ s.inBuf, c.1 < s.inCap.toNat
  /-- OUT_BUF is in canonical form. -/
  outForm : Memory.wf s.outBuf
  /-- OUT_BUF lists only indices below OUT_CAP (10_state R31). -/
  outBound : ∀ c ∈ s.outBuf, c.1 < s.outCap.toNat
  /-- OUT_LEN never exceeds OUT_CAP (10_state R26). -/
  outLen : s.outLen.toNat ≤ s.outCap.toNat
  /-- OUT_LEN is 0 while BUSY = 1 (70_reset_and_hazards R219). -/
  busyLen : s.status.busy = true → s.outLen = 0
  /-- When idle, every byte below OUT_LEN is defined (10_state R31, 20_memory R54). -/
  defined : s.status.busy = false → ∀ i < s.outLen.toNat, (Memory.read s.outBuf i).isSome = true
  /-- No draw that was made has the number of the next one: each draw is fresh (00_scope R10). -/
  inFresh : s.inStamp < s.nextDraw
  /-- No draw that was made has the number of the next one: each draw is fresh (00_scope R10). -/
  outFresh : s.outStamp < s.nextDraw

/-- The event is admitted: a host access inside its stated domain (20_memory R51), an engine slot or a reset. -/
def eventAdmitted (s : State) : Event → Prop
  | .host _ a => accessFault a s = none
  | .engine => True
  | .reset => True

/-- A safe agenda: no event of it stops the machine with a fault. -/
def agendaAdmitted (s : State) : Prop := ∀ e ∈ s.agenda, eventAdmitted s e

end Sys2Proof.Machine
end

