-- ==== Sys2Proof/Certificates/Slice0/Obligations.lean ====
section
/-! DEFINITION. The statements for the provers, from the numbered rules of spec/. Every statement is over all states (or
all states that meet a named hypothesis), never over one run, and so for every well-formed capacity, every order of the
agents' steps and every free value. -/

namespace Sys2Proof.Claims

open Sys2Proof.Machine

/-! ### Words the statements use -/

/-- What every completion leaves alone: CMD, IN_LEN, the capacities, every byte of IN_BUF, COLL, what is still on the
agenda and what hosts have read (30_encoding R78, 60_exceptions R183, 10_state R30). -/
def CompletionFrame (s t : State) : Prop :=
  t.cmd = s.cmd ∧ t.inLen = s.inLen ∧ t.inCap = s.inCap ∧ t.outCap = s.outCap ∧
  (∀ i, t.inByte i = s.inByte i) ∧ t.status.coll = s.status.coll ∧ t.agenda = s.agenda ∧ t.lastRead = s.lastRead

/-- `t` is `s` after `complete(o, r)` (30_encoding R78): the output, OUT_LEN, every STATUS field, a fresh draw beyond the
output, and the frame. The draw is a free value: nothing else is known of those bytes. -/
def SucceedsWith (s t : State) (o : List Byte) (r : Bool) : Prop :=
  t.output = o ∧ t.outLen.toNat = o.length ∧
  t.status.busy = false ∧ t.status.done = true ∧ t.status.err = false ∧ t.status.result = r ∧
  t.status.errCode = .success ∧
  (∀ i, o.length ≤ i → t.outByte i = Config.outByte s.nextDraw i) ∧ CompletionFrame s t

/-- `t` is `s` after `raise CodecError(code)` (60_exceptions R183): OUT_LEN 0, every STATUS field, every OUT_BUF byte a
fresh draw, and the frame. -/
def FailsWith (s t : State) (code : ErrCode) : Prop :=
  t.outLen = 0 ∧
  t.status.busy = false ∧ t.status.done = true ∧ t.status.err = true ∧ t.status.result = false ∧
  t.status.errCode = code ∧
  (∀ i, t.outByte i = Config.outByte s.nextDraw i) ∧ CompletionFrame s t

/-- A legal command finds its input in range: IN_LEN ≤ IN_CAP in a well-formed configuration (60_exceptions R182). -/
def Ready (s : State) : Prop := s.configOk = true ∧ s.inLen.toNat ≤ s.inCap.toNat

/-- Bit `j` of a byte sequence read as one bit string, the first byte first and the most significant bit of a byte first,
with zero bits after the end (20_memory R56, 40_base64 R100). -/
def bitOfBytes (input : List Byte) (j : Nat) : Bool := (input[j / 8]?.getD 0).getLsbD (7 - j % 8)

/-- Bit `j` of Base64 text read as the bit string of its 6-bit values, most significant bit first (20_memory R56). -/
def bitOfText (data : List Byte) (j : Nat) : Bool :=
  ((data[j / 6]?.bind b64Val).getD 0).getLsbD (5 - j % 6)

/-- Text in an alphabet: every character has a 6-bit value (10_state R35). -/
def InAlphabets (data : List Byte) : Prop := ∀ c ∈ data, (b64Val c).isSome = true

/-- `p` padding characters. -/
def pads (p : Nat) : List Byte := List.replicate p padByte

/-- Stripped text that DEC64 accepts: `data` in the alphabets and `p` padding characters, with no padding and a length
that is not 1 mod 4, or one or two padding characters and a length that is a multiple of 4 (40_base64 R108). -/
def Decodable (data : List Byte) (p : Nat) : Prop :=
  InAlphabets data ∧ ((p = 0 ∧ data.length % 4 ≠ 1) ∨ (1 ≤ p ∧ p ≤ 2 ∧ (data.length + p) % 4 = 0))

/-- The characters of a string as bytes (10_state R33). -/
def ascii (text : String) : List Byte := text.toList.map (fun c => BitVec.ofNat 8 c.toNat)

/-- `'A'` to `'F'` folded to lower case (41_hex R143). -/
def foldLower (c : Byte) : Byte := if 0x41 ≤ c.toNat ∧ c.toNat ≤ 0x46 then c + 0x20 else c

/-- `'a'` to `'f'` folded to upper case (41_hex R143). -/
def foldUpper (c : Byte) : Byte := if 0x61 ≤ c.toNat ∧ c.toNat ≤ 0x66 then c - 0x20 else c

/-- The stated domains of the five primitives; no other access has one (20_memory R51, R52, R54). -/
def InDomain (s : State) : HostAccess → Prop
  | .regRead off => off % 4 = 0 ∧ off ≤ 0xFC
  | .regWrite off _ => off % 4 = 0 ∧ off ≤ 0xFC
  | .inRead i => i < s.inCap.toNat
  | .inWrite i _ => i < s.inCap.toNat
  | .outRead i => i < s.outCap.toNat
  | .regReadNarrow _ _ => False
  | .regWriteNarrow _ _ _ => False
  | .outWrite _ _ => False

/-- An event that is neither a write to CMD nor a reset. -/
def Quiet (e : Event) : Prop := e ≠ .reset ∧ ∀ id v, e ≠ .host id (.regWrite 0x00 v)

/-- What a command gives on an input in range: its output bytes and result bit, or its error (30_encoding R77). -/
def commandResult (i : Instr) (input : List Byte) : Except ErrCode (List Byte × Bool) :=
  match i with
  | .enc64 c u => .ok (enc64Text c u input, false)
  | .enc64us => .ok (enc64Text false true input, false)
  | .dec64 => (dec64Result input).map (fun o => (o, false))
  | .isb64 => .ok ([], isb64Result input)
  | .enchex l => .ok (encHexText l input, false)
  | .dechex => (decHexResult input).map (fun o => (o, false))

/-- The next event of `s` is the access `a` by host `id`, in a well-formed configuration. -/
def Accessing (s : State) (id : Nat) (a : HostAccess) : Prop :=
  s.configOk = true ∧ ∃ rest, s.agenda = .host id a :: rest

end Sys2Proof.Claims

open Sys2Proof Sys2Proof.Machine Sys2Proof.Claims

/-! ### The encoding -/

/-- 30_encoding R70 to R73: the decoder and the encoder agree, in both directions, on every word and every command. -/
def Obligations.DecodeAgreesWithEncode : Prop :=
  ∀ (w : Word) (i : Instr), decode w = .ok i ↔ w = encode i

/-- 30_encoding R73: the formula of `legal(w)`; the legal words are the ten listed and exactly those the decoder gives a
command; and each row of opcode_table.json selects its command by its match and mask. -/
def Obligations.LegalWordsSelectOneCommandEach : Prop :=
  ∀ w : Word,
    (legalWord w = true ↔
      w.extractLsb' 11 21 = 0 ∧ w.extractLsb' 4 4 = 0 ∧
      ((w.extractLsb' 0 4 = 1 ∧ w.extractLsb' 10 1 = 0) ∨ (w.extractLsb' 0 4 = 5 ∧ w.extractLsb' 8 2 = 0) ∨
       ((w.extractLsb' 0 4 = 2 ∨ w.extractLsb' 0 4 = 3 ∨ w.extractLsb' 0 4 = 4 ∨ w.extractLsb' 0 4 = 6) ∧
        w.extractLsb' 8 3 = 0))) ∧
    (legalWord w = true ↔ ∃ i, decode w = .ok i) ∧
    (legalWord w = true ↔
      w ∈ [0x00000001#32, 0x00000101, 0x00000201, 0x00000301, 0x00000002, 0x00000003, 0x00000004, 0x00000005,
           0x00000405, 0x00000006]) ∧
    ((∃ c u, decode w = .ok (.enc64 c u)) ↔ w &&& 0xFFFFFCFF = 0x00000001) ∧
    (decode w = .ok .enc64us ↔ w &&& 0xFFFFFFFF = 0x00000002) ∧
    (decode w = .ok .dec64 ↔ w &&& 0xFFFFFFFF = 0x00000003) ∧
    (decode w = .ok .isb64 ↔ w &&& 0xFFFFFFFF = 0x00000004) ∧
    ((∃ l, decode w = .ok (.enchex l)) ↔ w &&& 0xFFFFFBFF = 0x00000005) ∧
    (decode w = .ok .dechex ↔ w &&& 0xFFFFFFFF = 0x00000006)

/-- 30_encoding R79: the words of the table decode to the commands their spellings name. -/
def Obligations.SpelledWordsDecode : Prop :=
  (commandOf "ENC64").map encode = some 0x00000001 ∧ decode 0x00000001 = .ok (.enc64 false false) ∧
  (commandOf "ENC64.C").map encode = some 0x00000101 ∧ decode 0x00000101 = .ok (.enc64 true false) ∧
  (commandOf "ENC64.U").map encode = some 0x00000201 ∧ decode 0x00000201 = .ok (.enc64 false true) ∧
  (commandOf "ENC64.CU").map encode = some 0x00000301 ∧ decode 0x00000301 = .ok (.enc64 true true) ∧
  (commandOf "ENC64US").map encode = some 0x00000002 ∧ decode 0x00000002 = .ok .enc64us ∧
  (commandOf "DEC64").map encode = some 0x00000003 ∧ decode 0x00000003 = .ok .dec64 ∧
  (commandOf "ISB64").map encode = some 0x00000004 ∧ decode 0x00000004 = .ok .isb64 ∧
  (commandOf "ENCHEX").map encode = some 0x00000005 ∧ decode 0x00000005 = .ok (.enchex false) ∧
  (commandOf "ENCHEX.L").map encode = some 0x00000405 ∧ decode 0x00000405 = .ok (.enchex true) ∧
  (commandOf "DECHEX").map encode = some 0x00000006 ∧ decode 0x00000006 = .ok .dechex ∧
  commandOf "ENC64.UC" = none ∧ ∀ w : Word, wordOf (.word w) = w

/-! ### The ROMs -/

/-- 10_state R33, R34 and R36: the contents of the four ROMs, as the strings the rules give. The order of the Base64
alphabet beyond five entries and the ASCII codes are the spec's own choice (decisions D34, D35), so the basis is derived. -/
def Obligations.RomContents : Prop :=
  (List.range 64).map (fun v => b64Std (BitVec.ofNat 6 v)) =
    ascii "ABCDEFGHIJKLMNOPQRSTUVWXYZabcdefghijklmnopqrstuvwxyz0123456789+/" ∧
  (List.range 64).map (fun v => b64Url (BitVec.ofNat 6 v)) =
    ascii "ABCDEFGHIJKLMNOPQRSTUVWXYZabcdefghijklmnopqrstuvwxyz0123456789-_" ∧
  (List.range 16).map (fun v => hexLo (BitVec.ofNat 4 v)) = ascii "0123456789abcdef" ∧
  (List.range 16).map (fun v => hexUp (BitVec.ofNat 4 v)) = ascii "0123456789ABCDEF"

/-- 10_state R35: B64VAL is the inverse of the union of both alphabets, and INVALID elsewhere. -/
def Obligations.B64ValInvertsBothAlphabets : Prop :=
  ∀ (c : Byte) (v : BitVec 6), b64Val c = some v ↔ c = b64Std v ∨ c = b64Url v

/-- 10_state R36 and R37: HEXVAL is the inverse of both digit tables, and INVALID elsewhere. -/
def Obligations.HexValInvertsBothDigitTables : Prop :=
  ∀ (c : Byte) (v : BitVec 4), hexVal c = some v ↔ c = hexLo v ∨ c = hexUp v

/-! ### The step -/

/-- First clause, 30_encoding R77: when it is the engine's turn and CMD decodes to a command, the step is that command, on
the state whose slot has been taken. Second clause, the MODEL'S CHOICE (log entry 12, DESIGN CHOICE; no rule says it): a
word placed by `withFetchWord`, which stands for an accepted CMD write (R76) with the engine's slot next, is the very next
thing that runs. -/
def Obligations.StepRunsDecodedCommand : Prop :=
  (∀ (s : State) (i : Instr), s.configOk = true → s.engineTurn → decode s.cmd = .ok i → step s = exec i s.slotTaken) ∧
  (∀ (s : State) (i : Instr), s.configOk = true →
    step (s.withFetchWord 32 (encode i).toNat) = exec i (s.accept (encode i)))

/-- 60_exceptions R181: an illegal word completes with IllegalCommand, whatever IN_LEN and IN_BUF hold. -/
def Obligations.IllegalWordCompletesWithIllegalCommand : Prop :=
  ∀ s : State, s.configOk = true → s.engineTurn → legalWord s.cmd = false →
    ∃ t, step s = .next t ∧ FailsWith s.slotTaken t .illegalCommand

/-- 00_scope R6 and R7: a step is refused exactly when the configuration is ill formed. That the refusal is made at every
step, and its name, are the model's choice (log entry 11). -/
def Obligations.RefusedExactlyWhenConfigIllFormed : Prop :=
  ∀ (s : State) (r : Refusal),
    step s = .refused r ↔
      r = .illFormedConfig ∧
      ¬ (1 ≤ s.inCap.toNat ∧
         max (2 * s.inCap.toNat)
           (4 * ((s.inCap.toNat + 2) / 3) + 2 * ((4 * ((s.inCap.toNat + 2) / 3) + 75) / 76)) ≤ s.outCap.toNat)

/-- 00_scope R7: no output exceeds OUTMAX(n), and no decoder produces more than `n` bytes. -/
def Obligations.OutputNeverExceedsOutMax : Prop :=
  (∀ (c u : Bool) (input : List Byte), (enc64Text c u input).length ≤ outMax input.length) ∧
  (∀ (l : Bool) (input : List Byte), (encHexText l input).length ≤ outMax input.length) ∧
  (∀ input o : List Byte, dec64Result input = .ok o → o.length ≤ input.length) ∧
  (∀ input o : List Byte, decHexResult input = .ok o → o.length ≤ input.length) ∧
  (∀ m n : Nat, m ≤ n → outMax m ≤ outMax n)

/-- 60_exceptions R194 and 00_scope R11: an idle block with nothing asked of it keeps all state, and an engine slot does
nothing to it. That such a slot or step exists and only passes is the model's reading (log entry 14, DEDUCED). -/
def Obligations.IdleBlockKeepsAllState : Prop :=
  ∀ s : State, s.configOk = true → s.status.busy = false →
    (s.agenda = [] → step s = .next s) ∧
    (∀ rest, s.agenda = .engine :: rest → step s = .next { s with agenda := rest })

/-- A pending command is over, by its completion or by a reset, after at most one step more than the agenda holds. The
BOUND is the MODEL'S CHOICE (log entry 1, DESIGN CHOICE): in the model an empty agenda gives the engine its slot. The
rules set no bound: 00_scope R11 and 70_reset_and_hazards R217 say only that the engine eventually completes (weak
fairness). -/
def Obligations.PendingCommandEndsWithinAgenda : Prop :=
  ∀ s : State, s.configOk = true → agendaAdmitted s → s.status.busy = true →
    ∃ k t, k ≤ s.agenda.length + 1 ∧ core.run k s = .next t ∧ t.status.busy = false

/-! ### The hosts' accesses -/

/-- 20_memory R51: an access inside its stated domain has a next state, one outside it is a fault, and nothing else is. -/
def Obligations.AccessFaultsExactlyOutsideItsDomain : Prop :=
  (∀ (s : State) (id : Nat) (a : HostAccess), Accessing s id a →
    (InDomain s a → ∃ t, step s = .next t) ∧ (¬ InDomain s a → ∃ f, step s = .fault f)) ∧
  (∀ (s : State) (f : Fault), step s = .fault f →
    ∃ id a rest, s.agenda = .host id a :: rest ∧ ¬ InDomain s a)

/-- 30_encoding R76: an idle block accepts a CMD write of any word in one step, with exactly the writes the rule lists; a
busy one does not, and sets COLL (70_reset_and_hazards R218). That OUT_BUF also keeps its bytes across acceptance is the
model's reading of a rule that lists no write of it (log entry 18, DEDUCED). -/
def Obligations.CommandWriteIsAcceptedWhenIdle : Prop :=
  ∀ (s : State) (id : Nat) (v : Word) (rest : List Event),
    s.configOk = true → s.agenda = .host id (.regWrite 0x00 v) :: rest →
    (s.status.busy = false →
      step s = .next { s with
        agenda := rest, cmd := v, outLen := 0,
        status := { busy := true, done := false, err := false, result := false, errCode := .success, coll := false } }) ∧
    (s.status.busy = true →
      step s = .next { s with agenda := rest, status := { s.status with coll := true } })

/-- 10_state R23: CMD stores every word a host writes while idle, keeps its value while BUSY, reads as the last stored
word, is never written by the engine, and resets to zero. -/
def Obligations.CmdHoldsTheLastAcceptedWord : Prop :=
  (∀ (s t : State) (id : Nat) (v : Word), Accessing s id (.regWrite 0x00 v) → step s = .next t →
    (s.status.busy = false → t.cmd = v ∧ t.status.busy = true) ∧
    (s.status.busy = true → t.cmd = s.cmd ∧ t.status.coll = true)) ∧
  (∀ (s t : State) (id : Nat), Accessing s id (.regRead 0x00) → step s = .next t →
    t.lastRead = some (id, .word s.cmd) ∧ t.cmd = s.cmd) ∧
  (∀ s t : State, engineStep s = .next t → t.cmd = s.cmd) ∧
  (∀ s : State, s.resetBlock.cmd = 0x00000000) ∧ State.reset.cmd = 0x00000000 ∧
  (∀ s t : State, step s = .next t → t.cmd ≠ s.cmd →
    (∃ rest, s.agenda = .reset :: rest) ∨
    (s.status.busy = false ∧ ∃ id v rest, s.agenda = .host id (.regWrite 0x00 v) :: rest ∧ t.cmd = v))

/-- 10_state R25: IN_LEN stores every value a host writes while idle, keeps its value while BUSY, reads as stored, is never
written by the engine, resets to zero, and a value above IN_CAP makes every legal command fail with LengthRange. -/
def Obligations.InLenHoldsTheLastStoredValue : Prop :=
  (∀ (s t : State) (id : Nat) (v : Word), Accessing s id (.regWrite 0x08 v) → step s = .next t →
    (s.status.busy = false → t.inLen = v ∧ t.status = s.status) ∧
    (s.status.busy = true → t.inLen = s.inLen ∧ t.status.coll = true)) ∧
  (∀ (s t : State) (id : Nat), Accessing s id (.regRead 0x08) → step s = .next t →
    t.lastRead = some (id, .word s.inLen) ∧ t.inLen = s.inLen) ∧
  (∀ s t : State, engineStep s = .next t → t.inLen = s.inLen) ∧
  (∀ s : State, s.resetBlock.inLen = 0x00000000) ∧ State.reset.inLen = 0x00000000 ∧
  (∀ (i : Instr) (s : State), s.inCap.toNat < s.inLen.toNat →
    ∃ t, exec i s = .next t ∧ t.status.errCode = .lengthRange)

/-- 10_state R27 and R28: INCAP and OUTCAP read as the parameters, ignore writes, and no step at all changes them. -/
def Obligations.CapacityRegistersAreConstant : Prop :=
  (∀ (s t : State) (id : Nat), Accessing s id (.regRead 0x10) → step s = .next t → t.lastRead = some (id, .word s.inCap)) ∧
  (∀ (s t : State) (id : Nat), Accessing s id (.regRead 0x14) → step s = .next t → t.lastRead = some (id, .word s.outCap)) ∧
  (∀ (s : State) (id : Nat) (v : Word) (off : Nat), off = 0x10 ∨ off = 0x14 →
    Accessing s id (.regWrite off v) → step s = .next s.slotTaken) ∧
  (∀ s t : State, step s = .next t → t.inCap = s.inCap ∧ t.outCap = s.outCap)

/-- 10_state R29: every reserved word offset reads as zero and ignores writes, in either phase. -/
def Obligations.ReservedOffsetsReadZeroAndIgnoreWrites : Prop :=
  ∀ (s : State) (id off : Nat), 0x18 ≤ off → off ≤ 0xFC → off % 4 = 0 →
    (Accessing s id (.regRead off) →
      step s = .next { s.slotTaken with lastRead := some (id, .word 0x00000000) }) ∧
    (∀ v, Accessing s id (.regWrite off v) → step s = .next s.slotTaken)

/-- 10_state R24: a host write to STATUS is ignored; the word read has the fields at their places and zeros above; and
60_exceptions R180: the number of each of the six error codes. -/
def Obligations.StatusReadsItsFieldsAndIgnoresWrites : Prop :=
  (∀ (s : State) (id : Nat) (v : Word), Accessing s id (.regWrite 0x04 v) → step s = .next s.slotTaken) ∧
  (∀ (s : State) (id : Nat), Accessing s id (.regRead 0x04) →
    ∃ w, step s = .next { s.slotTaken with lastRead := some (id, .word w) } ∧
      w.getLsbD 0 = s.status.busy ∧ w.getLsbD 1 = s.status.done ∧ w.getLsbD 2 = s.status.err ∧
      w.getLsbD 3 = s.status.result ∧ w.extractLsb' 4 4 = s.status.errCode.code ∧ w.getLsbD 8 = s.status.coll ∧
      w.extractLsb' 9 23 = 0) ∧
  (ErrCode.success.code = 0 ∧ ErrCode.invalidCharacter.code = 1 ∧ ErrCode.invalidLength.code = 2 ∧
   ErrCode.malformedPadding.code = 3 ∧ ErrCode.illegalCommand.code = 8 ∧ ErrCode.lengthRange.code = 9)

/-- 10_state R26, 20_memory R52: OUT_LEN reads as stored in either phase and ignores every write; acceptance and an error
completion make it 0, and so does a reset. (What a success completion makes it is in `SucceedsWith`.) -/
def Obligations.OutLenReadsAsStoredAndIgnoresWrites : Prop :=
  (∀ (s : State) (id : Nat), Accessing s id (.regRead 0x0C) →
    step s = .next { s.slotTaken with lastRead := some (id, .word s.outLen) }) ∧
  (∀ (s : State) (id : Nat) (v : Word), Accessing s id (.regWrite 0x0C v) → step s = .next s.slotTaken) ∧
  (∀ (s t : State) (id : Nat) (v : Word), Accessing s id (.regWrite 0x00 v) → s.status.busy = false →
    step s = .next t → t.outLen = 0x00000000) ∧
  (∀ s t : State, engineStep s = .next t → t.status.err = true → t.outLen = 0x00000000) ∧
  (∀ s : State, s.resetBlock.outLen = 0x00000000) ∧ State.reset.outLen = 0x00000000

/-- 20_memory R53: IN_BUF reads back what was written, in either phase, and a write touches one byte, only while idle. -/
def Obligations.InBufferReadsBackWhatWasWritten : Prop :=
  (∀ (s : State) (id i : Nat) (b : Byte), Accessing s id (.inWrite i b) → i < s.inCap.toNat →
    ∃ t, step s = .next t ∧
      (s.status.busy = false → t.inByte i = b ∧ (∀ j, j ≠ i → t.inByte j = s.inByte j) ∧ t.status = s.status) ∧
      (s.status.busy = true → (∀ j, t.inByte j = s.inByte j) ∧ t.status = { s.status with coll := true }) ∧
      (∀ j, t.outByte j = s.outByte j) ∧ t.cmd = s.cmd ∧ t.inLen = s.inLen ∧ t.outLen = s.outLen ∧
      t.inCap = s.inCap ∧ t.outCap = s.outCap ∧ t.lastRead = s.lastRead) ∧
  (∀ (s : State) (id i : Nat), Accessing s id (.inRead i) → i < s.inCap.toNat →
    step s = .next { s.slotTaken with lastRead := some (id, .byte (s.inByte i)) })

/-- 20_memory R54: an OUT read returns OUT_BUF[i] while idle and a draw while BUSY, and changes nothing else. -/
def Obligations.OutBufferReads : Prop :=
  ∀ (s : State) (id i : Nat), Accessing s id (.outRead i) → i < s.outCap.toNat →
    (s.status.busy = false →
      step s = .next { s.slotTaken with lastRead := some (id, .byte (s.outByte i)) }) ∧
    (s.status.busy = true →
      step s = .next { s.slotTaken with
        lastRead := some (id, .byte (Config.busyByte s.nextDraw)), nextDraw := s.nextDraw + 1 })

/-- 70_reset_and_hazards R218: writes while busy are dropped and set COLL, those to other offsets are ignored, and COLL
is cleared only by an accepted CMD write or by a reset. -/
def Obligations.WritesWhileBusyAreDroppedAndSetColl : Prop :=
  (∀ (s : State) (id : Nat) (a : HostAccess), Accessing s id a → InDomain s a → s.status.busy = true →
    ((∃ v, a = .regWrite 0x00 v) ∨ (∃ v, a = .regWrite 0x08 v) ∨ (∃ i b, a = .inWrite i b)) →
    step s = .next { s.slotTaken with status := { s.status with coll := true } }) ∧
  (∀ (s : State) (id off : Nat) (v : Word), Accessing s id (.regWrite off v) → InDomain s (.regWrite off v) →
    off ≠ 0x00 → off ≠ 0x08 → step s = .next s.slotTaken) ∧
  (∀ s t : State, step s = .next t → s.status.coll = true → t.status.coll = false →
    (∃ rest, s.agenda = .reset :: rest) ∨
    (s.status.busy = false ∧ ∃ id v rest, s.agenda = .host id (.regWrite 0x00 v) :: rest))

/-- 70_reset_and_hazards R219: what each read returns while BUSY = 1, in every state that keeps the invariant. -/
def Obligations.ReadsWhileBusy : Prop :=
  ∀ (s t : State) (id : Nat) (a : HostAccess), Inv s → s.status.busy = true → Accessing s id a → step s = .next t →
    (a = .regRead 0x04 → t.lastRead = some (id, .word (if s.status.coll then 0x00000101 else 0x00000001))) ∧
    (a = .regRead 0x0C → t.lastRead = some (id, .word 0x00000000)) ∧
    (a = .regRead 0x00 → t.lastRead = some (id, .word s.cmd)) ∧
    (a = .regRead 0x08 → t.lastRead = some (id, .word s.inLen)) ∧
    (a = .regRead 0x10 → t.lastRead = some (id, .word s.inCap)) ∧
    (a = .regRead 0x14 → t.lastRead = some (id, .word s.outCap)) ∧
    (∀ i, a = .inRead i → t.lastRead = some (id, .byte (s.inByte i))) ∧
    (∀ i, a = .outRead i → t.lastRead = some (id, .byte (Config.busyByte s.nextDraw)))

/-- 20_memory R59: no read changes the block. Only what the host learned changes, and the number of the next draw. -/
def Obligations.ReadsHaveNoSideEffect : Prop :=
  ∀ (s t : State) (id : Nat) (a : HostAccess),
    ((∃ off, a = .regRead off) ∨ (∃ i, a = .inRead i) ∨ (∃ i, a = .outRead i)) →
    Accessing s id a → step s = .next t →
    t = { s.slotTaken with lastRead := t.lastRead, nextDraw := t.nextDraw } ∧
    (t.nextDraw ≠ s.nextDraw → s.status.busy = true ∧ ∃ i, a = .outRead i)

/-- 60_exceptions R189: an access has the same effect whichever host performs it; only the record of who read differs. -/
def Obligations.EveryHostHasTheSameEffect : Prop :=
  ∀ (id id' : Nat) (a : HostAccess) (s t : State), hostAccess id a s = .next t →
    ∃ t', hostAccess id' a s = .next t' ∧ { t' with lastRead := t.lastRead } = t ∧
      (t.lastRead ≠ s.lastRead → ∃ v, t.lastRead = some (id, v) ∧ t'.lastRead = some (id', v))

/-! ### Reset -/

/-- 70_reset_and_hazards R211 and R213: a reset zeroes the registers, leaves the engine idle and the capacities alone, and
makes every buffer byte a draw that does not depend on the buffers before it. -/
def Obligations.ResetSetsRegistersAndDrawsBuffers : Prop :=
  ∀ (s : State) (rest : List Event), s.configOk = true → s.agenda = .reset :: rest →
    ∃ t, step s = .next t ∧
      t.cmd = 0x00000000 ∧ t.status.toWord = 0x00000000 ∧ t.status.busy = false ∧ t.inLen = 0x00000000 ∧
      t.outLen = 0x00000000 ∧ t.inCap = s.inCap ∧ t.outCap = s.outCap ∧
      (∀ i, t.inByte i = Config.inByte s.nextDraw i) ∧ (∀ i, t.outByte i = Config.outByte s.nextDraw i) ∧
      t.agenda = rest ∧ t.lastRead = s.lastRead

/-- 70_reset_and_hazards R212: a reset abandons a pending command: however many slots the engine gets afterwards, nothing
completes and nothing is reported. -/
def Obligations.ResetAbandonsPendingCommand : Prop :=
  ∀ (s : State) (n : Nat), s.configOk = true → s.status.busy = true →
    s.agenda = .reset :: List.replicate n .engine →
    core.run (n + 1) s = .next { s.resetBlock with agenda := [] } ∧
    s.resetBlock.status = Status.reset ∧ s.resetBlock.outLen = 0 ∧
    (∀ i, s.resetBlock.outByte i = Config.outByte s.nextDraw i)

/-- 10_state R40: the registers a host reads after reset, for every pair of capacities. (The capacities of `State.reset`
itself are the model's choice, log entry 2; this statement does not rest on them.) -/
def Obligations.RegistersAfterReset : Prop :=
  ∀ inCap outCap : Word,
    let s := State.resetWith inCap outCap
    s.regValue 0x00 = 0x00000000 ∧ s.regValue 0x04 = 0x00000000 ∧ s.regValue 0x08 = 0x00000000 ∧
    s.regValue 0x0C = 0x00000000 ∧ s.regValue 0x10 = inCap ∧ s.regValue 0x14 = outCap ∧
    (∀ off, 0x18 ≤ off → off ≤ 0xFC → s.regValue off = 0x00000000) ∧ s.status.busy = false

/-! ### Invariants -/

/-- The invariant holds after reset, for every well-formed configuration and for the one of `State.reset`. -/
def Obligations.InvariantHoldsAfterReset : Prop :=
  (∀ inCap outCap : Word, configOk inCap outCap = true → Inv (State.resetWith inCap outCap)) ∧ Inv State.reset

/-- Every step keeps the invariant: legal STATUS (10_state R24), canonical buffers inside their capacities (R30, R31),
OUT_LEN at most OUT_CAP (R26) and 0 while BUSY (70_reset_and_hazards R219), every byte below OUT_LEN defined when idle
(20_memory R54), a well-formed configuration (00_scope R7). -/
def Obligations.StepKeepsInvariant : Prop :=
  ∀ s t : State, Inv s → step s = .next t → Inv t

/-! ### Completions -/

/-- 60_exceptions R183: an engine step that ends in an error leaves OUT_LEN 0, RESULT 0, ERR 1, DONE 1, BUSY 0, the code of
the error, every OUT_BUF byte a draw, and CMD, IN_LEN, IN_BUF and COLL as they were. -/
def Obligations.ErrorCompletionLeavesOnlyItsCode : Prop :=
  ∀ s t : State, engineStep s = .next t → t.status.err = true →
    t.status.errCode ≠ .success ∧ FailsWith s t t.status.errCode

/-- 30_encoding R77 and R78, 60_exceptions R183, 10_state R30: the frame of every command: no command touches CMD, IN_LEN,
the capacities, any byte of IN_BUF, COLL, the agenda or what hosts have read, and each one completes. -/
def Obligations.EveryCommandCompletesWithinItsFrame : Prop :=
  ∀ (i : Instr) (s : State), ∃ t, exec i s = .next t ∧ CompletionFrame s t ∧
    t.status.busy = false ∧ t.status.done = true ∧ (t.status.err = true ↔ t.status.errCode ≠ .success) ∧
    (t.status.err = true → t.status.result = false ∧ t.outLen = 0)

/-- 60_exceptions R182: a legal command with IN_LEN > IN_CAP completes with LengthRange, whatever IN_BUF holds; a command
whose IN_LEN is in range, 0 among them, does not. -/
def Obligations.InputBeyondCapacityIsLengthRange : Prop :=
  (∀ (i : Instr) (s : State), s.inCap.toNat < s.inLen.toNat →
    ∃ t, exec i s = .next t ∧ FailsWith s t .lengthRange) ∧
  (∀ (i : Instr) (s t : State), s.inLen.toNat ≤ s.inCap.toNat → exec i s = .next t →
    t.status.errCode ≠ .lengthRange)

/-- 60_exceptions R186: in range, ENC64, ENC64US, ENCHEX and ISB64 always succeed; only DEC64 and DECHEX report codes 1 to
3. -/
def Obligations.OnlyDecodersCanFail : Prop :=
  ∀ (i : Instr) (s t : State), s.inLen.toNat ≤ s.inCap.toNat → exec i s = .next t →
    (i ≠ .dec64 → i ≠ .dechex → t.status.err = false ∧ t.status.errCode = .success) ∧
    (t.status.errCode = .invalidCharacter ∨ t.status.errCode = .invalidLength ∨ t.status.errCode = .malformedPadding →
      i = .dec64 ∨ i = .dechex)

/-- 60_exceptions R184: one code per command, by priority, with the rule's two examples. -/
def Obligations.ErrorsAreReportedByPriority : Prop :=
  (∀ s t : State, engineStep s = .next t → legalWord s.cmd = false → t.status.errCode = .illegalCommand) ∧
  (∀ s t : State, engineStep s = .next t → legalWord s.cmd = true → s.inCap.toNat < s.inLen.toNat →
    t.status.errCode = .lengthRange) ∧
  (∀ s t : State, engineStep s = .next t → decode s.cmd = .ok .dec64 → s.inLen.toNat ≤ s.inCap.toNat →
    ((stripLb s.input).length % 4 = 1 → t.status.errCode = .invalidLength) ∧
    ((stripLb s.input).length % 4 ≠ 1 → (∃ c ∈ stripLb s.input, c ≠ padByte ∧ b64Val c = none) →
      t.status.errCode = .invalidCharacter) ∧
    (t.status.errCode = .malformedPadding →
      (stripLb s.input).length % 4 ≠ 1 ∧ ∀ c ∈ stripLb s.input, c = padByte ∨ (b64Val c).isSome = true)) ∧
  (∀ s t : State, engineStep s = .next t → decode s.cmd = .ok .dechex → s.inLen.toNat ≤ s.inCap.toNat →
    (s.input.length % 2 = 1 → t.status.errCode = .invalidLength) ∧
    (s.input.length % 2 = 0 → (∃ c ∈ s.input, hexVal c = none) → t.status.errCode = .invalidCharacter)) ∧
  (∀ s t : State, engineStep s = .next t → s.inLen.toNat ≤ s.inCap.toNat →
    (∃ i, decode s.cmd = .ok i ∧ i ≠ .dec64 ∧ i ≠ .dechex) → t.status.errCode = .success) ∧
  (∀ s t : State, engineStep s = .next t → decode s.cmd = .ok .dec64 → s.inLen.toNat ≤ s.inCap.toNat →
    (s.input = ascii "$" → t.status.errCode = .invalidLength) ∧
    (s.input = ascii "TWFu$$" → t.status.errCode = .invalidCharacter))

/-- 30_encoding R77: the result depends only on the command word and the input: two blocks that agree on CMD, IN_LEN,
IN_CAP and the bytes below IN_LEN complete with the same output and the same STATUS but for COLL. -/
def Obligations.ResultDependsOnlyOnWordAndInput : Prop :=
  ∀ s s' t t' : State, s.configOk = true → s'.configOk = true →
    s'.cmd = s.cmd → s'.inLen = s.inLen → s'.inCap = s.inCap → (∀ i < s.inLen.toNat, s'.inByte i = s.inByte i) →
    engineStep s = .next t → engineStep s' = .next t' →
    t'.output = t.output ∧ t'.outLen = t.outLen ∧ { t'.status with coll := t.status.coll } = t.status

/-- 10_state R32, 20_memory R61, 70_reset_and_hazards R217: whatever hosts do while a command is pending, and however many
of their accesses come before its completion, CMD, IN_LEN and IN_BUF stay, and the command gives the result it would have
given at once. -/
def Obligations.PendingCommandIsUnaffectedByHosts : Prop :=
  ∀ (s t : State) (es rest : List Event), s.configOk = true → s.status.busy = true → s.agenda = es ++ rest →
    (∀ e ∈ es, ∃ id a, e = .host id a) → core.run es.length s = .next t →
    t.status.busy = true ∧ t.cmd = s.cmd ∧ t.inLen = s.inLen ∧ (∀ i, t.inByte i = s.inByte i) ∧ t.agenda = rest ∧
    ∃ u v, engineStep s = .next u ∧ engineStep t = .next v ∧ v.output = u.output ∧ v.outLen = u.outLen ∧
      { v.status with coll := u.status.coll } = u.status

/-- 20_memory R63, 70_reset_and_hazards R220: after a completion, until the next CMD write or reset, OUT_LEN, STATUS and
every byte of OUT_BUF stay as they are, whatever else hosts do. -/
def Obligations.ResultStaysVisibleUntilNextCommand : Prop :=
  ∀ (s t : State) (es rest : List Event), s.status.busy = false → s.agenda = es ++ rest → (∀ e ∈ es, Quiet e) →
    core.run es.length s = .next t →
    t.status = s.status ∧ t.outLen = s.outLen ∧ (∀ i, t.outByte i = s.outByte i) ∧ t.output = s.output ∧ t.cmd = s.cmd

/-- 30_encoding R80: the accesses of `ws text` on an idle block make `text` the input of the next command and leave
everything else as it was, the bytes of IN_BUF beyond the text among it. -/
def Obligations.WrittenTextBecomesTheInput : Prop :=
  ∀ (s : State) (id : Nat) (text : List Byte) (rest : List Event),
    s.configOk = true → s.status.busy = false → text.length ≤ s.inCap.toNat →
    s.agenda = scriptEvents id [.ws text] ++ rest →
    ∃ t, core.run (text.length + 1) s = .next t ∧ t.input = text ∧ t.status = s.status ∧ t.agenda = rest ∧
      t.cmd = s.cmd ∧ t.inCap = s.inCap ∧ t.outCap = s.outCap ∧ t.outLen = s.outLen ∧
      (∀ i, t.outByte i = s.outByte i) ∧ (∀ j, text.length ≤ j → t.inByte j = s.inByte j) ∧ t.lastRead = s.lastRead

/-- 70_reset_and_hazards R215, 30_encoding R77: from every idle state, a host that writes its text to IN, its length to
IN_LEN and a command's word to CMD gets, once the engine has had its slot, that command's result on that text. -/
def Obligations.HostRunsACommandOnItsText : Prop :=
  ∀ (s : State) (id : Nat) (i : Instr) (text : List Byte) (rest : List Event),
    s.configOk = true → s.status.busy = false → text.length ≤ s.inCap.toNat →
    s.agenda = scriptEvents id [.ws text, .wr .cmd (encode i)] ++ .engine :: rest →
    ∃ t, core.run (text.length + 3) s = .next t ∧ t.agenda = rest ∧ t.cmd = encode i ∧
      t.status.busy = false ∧ t.status.done = true ∧ t.status.coll = false ∧
      (∀ o r, commandResult i text = .ok (o, r) →
        t.output = o ∧ t.status.result = r ∧ t.status.err = false ∧ t.status.errCode = .success) ∧
      (∀ c, commandResult i text = .error c → t.output = [] ∧ t.status.err = true ∧ t.status.errCode = c)

/-! ### The Base64 unit -/

/-- 40_base64 R104: ENC64 completes with its text for every option pair and every input in range; empty input gives empty
output. -/
def Obligations.Enc64CompletesWithItsText : Prop :=
  ∀ (c u : Bool) (s : State), Ready s →
    ∃ t, exec (.enc64 c u) s = .next t ∧ SucceedsWith s t (enc64Text c u s.input) false ∧
      (s.inLen = 0 → t.outLen = 0)

/-- 40_base64 R100 to R102, 20_memory R56: the characters of the unchunked text are the alphabet's characters for the
6-bit groups of the input's bit string, zero bits after its end; only padding follows, and only with the standard
alphabet. -/
def Obligations.Enc64TextSpellsTheBitString : Prop :=
  ∀ (u : Bool) (input : List Byte),
    (∀ k < ceilDiv (4 * input.length) 3, ∃ v : BitVec 6,
      (enc64Text false u input)[k]? = some (b64Alphabet u v) ∧
      ∀ b < 6, v.getLsbD (5 - b) = bitOfBytes input (6 * k + b)) ∧
    (∀ k c, ceilDiv (4 * input.length) 3 ≤ k → (enc64Text false u input)[k]? = some c → c = padByte) ∧
    (enc64Text false u input).length =
      (if u then ceilDiv (4 * input.length) 3 else 4 * ceilDiv input.length 3)

/-- 40_base64 R101: the padding of each remainder, and padded text is a multiple of 4 characters. -/
def Obligations.PaddingCompletesTheQuantum : Prop :=
  padFmt 0 = [] ∧ padFmt 1 = [0x3D, 0x3D] ∧ padFmt 2 = [0x3D] ∧
  (∀ input : List Byte, (enc64Text false false input).length % 4 = 0) ∧
  (∀ input : List Byte,
    enc64Text false false input = (b64Groups input).map b64Std ++ padFmt (input.length % 3))

/-- 40_base64 R102: the URL-safe text has no padding and exactly ceil(4n/3) characters, chunked or not. -/
def Obligations.UrlSafeTextNeverPads : Prop :=
  ∀ input : List Byte,
    (enc64Text false true input).length = ceilDiv (4 * input.length) 3 ∧
    (∀ c : Bool, padByte ∉ enc64Text c true input) ∧
    (∀ c : Bool, stripLb (enc64Text c true input) = (b64Groups input).map b64Url)

/-- 40_base64 R103: chunked text is lines of 76 characters, the last one of 1 to 76, each followed by CR LF; empty text
stays empty. -/
def Obligations.ChunkedTextIsLinesOfSeventySix : Prop :=
  chunk [] = [] ∧
  ∀ t : List Byte, t ≠ [] →
    ∃ lines last, chunk t = (lines ++ [last]).flatMap (fun line => line ++ [0x0D, 0x0A]) ∧
      lines.flatten ++ last = t ∧ (∀ line ∈ lines, line.length = 76) ∧ 1 ≤ last.length ∧ last.length ≤ 76

/-- 40_base64 R105: ENC64US is ENC64 with C = 0 and U = 1, for every input; it completes; empty input gives empty output. -/
def Obligations.Enc64usIsUrlSafeEnc64 : Prop :=
  (∀ s : State, exec .enc64us s = exec (.enc64 false true) s) ∧
  (∀ s : State, Ready s → ∃ t, exec .enc64us s = .next t ∧ SucceedsWith s t (enc64Text false true s.input) false ∧
    (s.inLen = 0 → t.outLen = 0)) ∧
  decode 0x00000002 = .ok .enc64us ∧ (∀ w, decode w = .ok .enc64us → w = 0x00000002)

/-- 40_base64 R106: the four encoder lengths, and ENC64US's. -/
def Obligations.EncoderOutputLengths : Prop :=
  (∀ input : List Byte,
    let n := input.length
    let mu := ceilDiv (4 * n) 3
    let mp := 4 * ceilDiv n 3
    (enc64Text false false input).length = mp ∧ (enc64Text false true input).length = mu ∧
    (enc64Text true false input).length = mp + 2 * ceilDiv mp 76 ∧
    (enc64Text true true input).length = mu + 2 * ceilDiv mu 76 ∧
    (n % 3 = 0 → mp - mu = 0) ∧ (n % 3 = 1 → mp - mu = 2) ∧ (n % 3 = 2 → mp - mu = 1)) ∧
  (∀ s : State, Ready s → ∃ t, exec .enc64us s = .next t ∧ t.outLen.toNat = ceilDiv (4 * s.inLen.toNat) 3)

/-- 40_base64 R107 and R108, 20_memory R56: on text that is data characters and allowed padding once line breaks are
removed, DEC64 completes with the bytes of the bit string of its 6-bit values. -/
def Obligations.Dec64CompletesWithTheBitString : Prop :=
  ∀ (s : State) (data : List Byte) (p : Nat), Ready s → stripLb s.input = data ++ pads p → Decodable data p →
    ∃ o t, exec .dec64 s = .next t ∧ SucceedsWith s t o false ∧ o.length = 3 * data.length / 4 ∧
      ∀ k < o.length, ∀ b < 8, (o[k]?.getD 0).getLsbD (7 - b) = bitOfText data (8 * k + b)

/-- 40_base64 R108, the errors in their order: where DEC64 completes with each of its three codes. -/
def Obligations.Dec64ErrorsInOrder : Prop :=
  ∀ s : State, Ready s →
    let t := stripLb s.input
    (t.length % 4 = 1 → ∃ u, exec .dec64 s = .next u ∧ FailsWith s u .invalidLength) ∧
    (t.length % 4 ≠ 1 → (∃ c ∈ t, c ≠ padByte ∧ b64Val c = none) →
      ∃ u, exec .dec64 s = .next u ∧ FailsWith s u .invalidCharacter) ∧
    (t.length % 4 ≠ 1 → (∀ c ∈ t, c = padByte ∨ (b64Val c).isSome = true) →
      ((∃ x c y, t = x ++ padByte :: y ∧ c ∈ y ∧ c ≠ padByte) ∨
       (∃ data p, t = data ++ pads p ∧ InAlphabets data ∧ 1 ≤ p ∧ (2 < p ∨ t.length % 4 ≠ 0))) →
      ∃ u, exec .dec64 s = .next u ∧ FailsWith s u .malformedPadding)

/-- 40_base64 R109: the bits of the final group that belong to no output byte never matter, and are no error. -/
def Obligations.DroppedBitsNeverMatter : Prop :=
  (∀ (data : List Byte) (c c' : Byte) (v v' : BitVec 6) (p : Nat),
    b64Val c = some v → b64Val c' = some v' →
    Decodable (data ++ [c]) p →
    (((data.length + 1) % 4 = 2 ∧ v.extractLsb' 4 2 = v'.extractLsb' 4 2) ∨
     ((data.length + 1) % 4 = 3 ∧ v.extractLsb' 2 4 = v'.extractLsb' 2 4)) →
    (∃ o, dec64Result (data ++ [c] ++ pads p) = .ok o) ∧
    dec64Result (data ++ [c'] ++ pads p) = dec64Result (data ++ [c] ++ pads p)) ∧
  dec64Result (ascii "TWF=") = .ok [0x4D, 0x61] ∧ dec64Result (ascii "TWE=") = .ok [0x4D, 0x61]

/-- 40_base64 R110: the decoder's output length from the number of data characters; it never exceeds the input's. -/
def Obligations.DecoderOutputLength : Prop :=
  ∀ input o : List Byte, dec64Result input = .ok o →
    let d := (stripLb input).length - padRun (stripLb input)
    d % 4 ≠ 1 ∧
    (d % 4 = 0 → o.length = 3 * (d / 4)) ∧ (d % 4 = 2 → o.length = 3 * (d / 4) + 1) ∧
    (d % 4 = 3 → o.length = 3 * (d / 4) + 2) ∧ o.length = 3 * d / 4 ∧ o.length ≤ input.length

/-- 40_base64 R111: (a) DEC64 of an ENC64 output gives the bytes back; (b) encoding again with the same options gives the
text back. Stated of the machine: of any block that runs DEC64 on the output another block's ENC64 left. -/
def Obligations.Base64RoundTrip : Prop :=
  (∀ (c u : Bool) (s t s' : State), Ready s → exec (.enc64 c u) s = .next t → Ready s' → s'.input = t.output →
    ∃ t', exec .dec64 s' = .next t' ∧ SucceedsWith s' t' s.input false) ∧
  (∀ (c u : Bool) (b y : List Byte), dec64Result (enc64Text c u b) = .ok y → enc64Text c u y = enc64Text c u b) ∧
  (∀ (c u : Bool) (b : List Byte), dec64Result (enc64Text c u b) = .ok b)

/-! ### The sniffer -/

/-- 42_sniffer R160 and R161: ISB64 completes with no output byte, and RESULT = 1 exactly when, whitespace removed, the
input is characters of either alphabet and then a pad run that is empty or ends at a multiple of 4. -/
def Obligations.Isb64CompletesWithThePredicate : Prop :=
  ∀ s : State, Ready s →
    ∃ t r, exec .isb64 s = .next t ∧ SucceedsWith s t [] r ∧
      (r = true ↔ ∃ data p, stripWs s.input = data ++ pads p ∧ InAlphabets data ∧
        (p = 0 ∨ (stripWs s.input).length % 4 = 0))

/-- 42_sniffer R163: no false negatives against the decoder. -/
def Obligations.SnifferHasNoFalseNegatives : Prop :=
  ∀ s t t' : State, Ready s → exec .dec64 s = .next t → t.status.err = false → exec .isb64 s = .next t' →
    t'.status.result = true

/-- 42_sniffer R162: RESULT = 1 does not imply that DEC64 succeeds: the rule's three counter-examples. -/
def Obligations.SnifferIsOnlyAdvisory : Prop :=
  (isb64Result (ascii "A") = true ∧ dec64Result (ascii "A") = .error .invalidLength) ∧
  (isb64Result (ascii "A===") = true ∧ dec64Result (ascii "A===") = .error .malformedPadding) ∧
  (isb64Result (ascii "TW E=") = true ∧ ∀ o, dec64Result (ascii "TW E=") ≠ .ok o)

/-! ### The hex unit -/

/-- 41_hex R140 and R141: ENCHEX completes with twice as many characters, each byte's high digit first. -/
def Obligations.EnchexCompletesWithTwoDigitsPerByte : Prop :=
  ∀ (l : Bool) (s : State), Ready s →
    ∃ o t, exec (.enchex l) s = .next t ∧ SucceedsWith s t o false ∧ o.length = 2 * s.inLen.toNat ∧
      ∀ k < s.inLen.toNat,
        o[2 * k]? = some ((if l then hexLo else hexUp) ((s.inByte k).extractLsb' 4 4)) ∧
        o[2 * k + 1]? = some ((if l then hexLo else hexUp) ((s.inByte k).extractLsb' 0 4))

/-- 41_hex R142: on an even number of hex digits, DECHEX completes with one byte per pair, the first digit the high
nibble. -/
def Obligations.DechexCompletesWithOneBytePerPair : Prop :=
  ∀ s : State, Ready s → s.inLen.toNat % 2 = 0 → (∀ i < s.inLen.toNat, (hexVal (s.inByte i)).isSome = true) →
    ∃ o t, exec .dechex s = .next t ∧ SucceedsWith s t o false ∧ o.length = s.inLen.toNat / 2 ∧
      ∀ k < o.length, ∃ hi lo, hexVal (s.inByte (2 * k)) = some hi ∧ hexVal (s.inByte (2 * k + 1)) = some lo ∧
        o[k]? = some (hi ++ lo)

/-- 41_hex R142: an odd length is InvalidLength; otherwise any byte that is no hex digit is InvalidCharacter. -/
def Obligations.DechexErrorsInOrder : Prop :=
  ∀ s : State, Ready s →
    (s.inLen.toNat % 2 = 1 → ∃ t, exec .dechex s = .next t ∧ FailsWith s t .invalidLength) ∧
    (s.inLen.toNat % 2 = 0 → (∃ i < s.inLen.toNat, hexVal (s.inByte i) = none) →
      ∃ t, exec .dechex s = .next t ∧ FailsWith s t .invalidCharacter)

/-- 41_hex R143: (a) DECHEX of an ENCHEX output gives the bytes back; (b) hex digits decode to half as many bytes, and
encode again to the digits folded to the chosen case. -/
def Obligations.HexRoundTrip : Prop :=
  (∀ (l : Bool) (b : List Byte), decHexResult (encHexText l b) = .ok b) ∧
  (∀ (l : Bool) (s t s' : State), Ready s → exec (.enchex l) s = .next t → Ready s' → s'.input = t.output →
    ∃ t', exec .dechex s' = .next t' ∧ SucceedsWith s' t' s.input false) ∧
  (∀ input : List Byte, input.length % 2 = 0 → (∀ c ∈ input, (hexVal c).isSome = true) →
    ∃ o, decHexResult input = .ok o ∧ o.length = input.length / 2 ∧
      encHexText true o = input.map foldLower ∧ encHexText false o = input.map foldUpper)
end

