-- ==== Sys2Proof/Laws/Memory.lean ====
section
/-! SUPPORT. The laws of a buffer: a read after a write, what the buffer of a byte sequence holds, and that every
operation keeps the canonical form. -/

namespace Sys2Proof.Machine

@[simp] theorem Memory.read_nil (a : Nat) : Memory.read [] a = none := rfl

theorem Memory.read_cons (k : Nat) (v : Byte) (m : Memory) (a : Nat) :
    Memory.read ((k, v) :: m) a = if k = a then some v else Memory.read m a := rfl

/-- A read after a write to the same index gives the byte written. -/
theorem Memory.read_write_same (m : Memory) (a : Nat) (b : Byte) : Memory.read (Memory.write m a b) a = some b := by
  induction m with
  | nil => simp [Memory.write, Memory.read]
  | cons c m ih =>
    obtain ⟨k, v⟩ := c
    unfold Memory.write
    split
    · simp [Memory.read]
    · split
      · simp [Memory.read]
      · rw [Memory.read_cons, if_neg (by omega), ih]

/-- A write leaves every other index alone. -/
theorem Memory.read_write_other (m : Memory) {a a' : Nat} (b : Byte) (h : a' ≠ a) :
    Memory.read (Memory.write m a b) a' = Memory.read m a' := by
  induction m with
  | nil => simp [Memory.write, Memory.read, Memory.unlisted, Ne.symm h]
  | cons c m ih =>
    obtain ⟨k, v⟩ := c
    unfold Memory.write
    split
    · rw [Memory.read_cons, if_neg (Ne.symm h)]
    · split
      · next _ hk => rw [Memory.read_cons, Memory.read_cons, if_neg (Ne.symm h), if_neg (by omega)]
      · rw [Memory.read_cons, Memory.read_cons, ih]

/-- The indices after a write are those before it and the one written. -/
theorem Memory.mem_write {m : Memory} {a : Nat} {b : Byte} {c : Host.Cell} (h : c ∈ Memory.write m a b) :
    c = (a, b) ∨ c ∈ m := by
  induction m with
  | nil => simpa [Memory.write] using h
  | cons d m ih =>
    obtain ⟨k, v⟩ := d
    unfold Memory.write at h
    split at h
    · simpa using h
    · split at h
      · rcases List.mem_cons.mp h with h | h
        · exact .inl h
        · exact .inr (List.mem_cons_of_mem _ h)
      · rcases List.mem_cons.mp h with h | h
        · exact .inr (h ▸ List.mem_cons_self)
        · exact (ih h).imp_right (List.mem_cons_of_mem _)

/-- A write keeps the canonical form. -/
theorem Memory.write_wf {m : Memory} (h : Memory.wf m) (a : Nat) (b : Byte) : Memory.wf (Memory.write m a b) := by
  induction m with
  | nil => simp [Memory.write, Memory.wf]
  | cons c m ih =>
    obtain ⟨k, v⟩ := c
    have hk := (List.pairwise_cons.mp h).1
    have hm := (List.pairwise_cons.mp h).2
    unfold Memory.write
    split
    · next hlt =>
      refine List.pairwise_cons.mpr ⟨fun x hx => ?_, h⟩
      rcases List.mem_cons.mp hx with rfl | hx
      · exact hlt
      · exact Nat.lt_trans hlt (hk x hx)
    · split
      · next _ heq => exact List.pairwise_cons.mpr ⟨fun x hx => heq ▸ hk x hx, hm⟩
      · refine List.pairwise_cons.mpr ⟨fun x hx => ?_, ih hm⟩
        rcases Memory.mem_write hx with rfl | hx
        · show k < a; omega
        · exact hk x hx

/-- The cells of a byte sequence have indices from the first one on. -/
theorem Memory.mem_cellsFrom {k : Nat} {o : List Byte} {c : Host.Cell} (h : c ∈ Memory.cellsFrom k o) :
    k ≤ c.1 ∧ c.1 < k + o.length := by
  induction o generalizing k with
  | nil => simp [Memory.cellsFrom] at h
  | cons b o ih =>
    rcases List.mem_cons.mp h with rfl | h
    · simp
    · have := ih h
      simp only [List.length_cons]
      omega

theorem Memory.cellsFrom_wf (k : Nat) (o : List Byte) : Memory.wf (Memory.cellsFrom k o) := by
  induction o generalizing k with
  | nil => exact List.Pairwise.nil
  | cons b o ih => exact List.pairwise_cons.mpr ⟨fun x hx => (Memory.mem_cellsFrom hx).1, ih (k + 1)⟩

theorem Memory.read_cellsFrom (k i : Nat) (o : List Byte) : Memory.read (Memory.cellsFrom k o) (k + i) = o[i]? := by
  induction o generalizing k i with
  | nil => rfl
  | cons b o ih =>
    cases i with
    | zero => simp [Memory.cellsFrom, Memory.read]
    | succ i =>
      rw [Memory.cellsFrom, Memory.read_cons, if_neg (by omega), show k + (i + 1) = (k + 1) + i by omega, ih]
      simp

/-- The buffer of a byte sequence is in canonical form. -/
theorem Memory.ofBytes_wf (o : List Byte) : Memory.wf (Memory.ofBytes o) := Memory.cellsFrom_wf 0 o

/-- The buffer of a byte sequence lists only its indices. -/
theorem Memory.ofBytes_bound {o : List Byte} {c : Host.Cell} (h : c ∈ Memory.ofBytes o) : c.1 < o.length := by
  have := (Memory.mem_cellsFrom h).2
  omega

/-- The buffer of a byte sequence holds byte `i` at index `i` and defines nothing beyond. -/
@[simp] theorem Memory.read_ofBytes (o : List Byte) (i : Nat) : Memory.read (Memory.ofBytes o) i = o[i]? := by
  simpa [Memory.ofBytes] using Memory.read_cellsFrom 0 i o

end Sys2Proof.Machine
end

