-- ==== Sys2Proof/Laws/State.lean ====
section
/-! SUPPORT. One lemma per field per update of State, each true by definition, so that no proof unfolds a record update. -/

namespace Sys2Proof.Machine

/-! ### Acceptance: `State.accept` -/

@[simp] theorem State.accept_cmd (s : State) (v : Word) : (s.accept v).cmd = v := rfl
@[simp] theorem State.accept_status (s : State) (v : Word) : (s.accept v).status = Status.accepted := rfl
@[simp] theorem State.accept_inLen (s : State) (v : Word) : (s.accept v).inLen = s.inLen := rfl
@[simp] theorem State.accept_outLen (s : State) (v : Word) : (s.accept v).outLen = 0 := rfl
@[simp] theorem State.accept_inCap (s : State) (v : Word) : (s.accept v).inCap = s.inCap := rfl
@[simp] theorem State.accept_outCap (s : State) (v : Word) : (s.accept v).outCap = s.outCap := rfl
@[simp] theorem State.accept_inBuf (s : State) (v : Word) : (s.accept v).inBuf = s.inBuf := rfl
@[simp] theorem State.accept_inStamp (s : State) (v : Word) : (s.accept v).inStamp = s.inStamp := rfl
@[simp] theorem State.accept_outBuf (s : State) (v : Word) : (s.accept v).outBuf = s.outBuf := rfl
@[simp] theorem State.accept_outStamp (s : State) (v : Word) : (s.accept v).outStamp = s.outStamp := rfl
@[simp] theorem State.accept_nextDraw (s : State) (v : Word) : (s.accept v).nextDraw = s.nextDraw := rfl
@[simp] theorem State.accept_agenda (s : State) (v : Word) : (s.accept v).agenda = s.agenda := rfl
@[simp] theorem State.accept_lastRead (s : State) (v : Word) : (s.accept v).lastRead = s.lastRead := rfl

/-! ### Success completion: `State.complete` -/

@[simp] theorem State.complete_cmd (s : State) (o : List Byte) (r : Bool) : (s.complete o r).cmd = s.cmd := rfl
@[simp] theorem State.complete_status (s : State) (o : List Byte) (r : Bool) : (s.complete o r).status = s.status.succeeded r := rfl
@[simp] theorem State.complete_inLen (s : State) (o : List Byte) (r : Bool) : (s.complete o r).inLen = s.inLen := rfl
@[simp] theorem State.complete_outLen (s : State) (o : List Byte) (r : Bool) : (s.complete o r).outLen = BitVec.ofNat 32 o.length := rfl
@[simp] theorem State.complete_inCap (s : State) (o : List Byte) (r : Bool) : (s.complete o r).inCap = s.inCap := rfl
@[simp] theorem State.complete_outCap (s : State) (o : List Byte) (r : Bool) : (s.complete o r).outCap = s.outCap := rfl
@[simp] theorem State.complete_inBuf (s : State) (o : List Byte) (r : Bool) : (s.complete o r).inBuf = s.inBuf := rfl
@[simp] theorem State.complete_inStamp (s : State) (o : List Byte) (r : Bool) : (s.complete o r).inStamp = s.inStamp := rfl
@[simp] theorem State.complete_outBuf (s : State) (o : List Byte) (r : Bool) : (s.complete o r).outBuf = Memory.ofBytes o := rfl
@[simp] theorem State.complete_outStamp (s : State) (o : List Byte) (r : Bool) : (s.complete o r).outStamp = s.nextDraw := rfl
@[simp] theorem State.complete_nextDraw (s : State) (o : List Byte) (r : Bool) : (s.complete o r).nextDraw = s.nextDraw + 1 := rfl
@[simp] theorem State.complete_agenda (s : State) (o : List Byte) (r : Bool) : (s.complete o r).agenda = s.agenda := rfl
@[simp] theorem State.complete_lastRead (s : State) (o : List Byte) (r : Bool) : (s.complete o r).lastRead = s.lastRead := rfl

/-! ### Error completion: `State.raise` -/

@[simp] theorem State.raise_cmd (s : State) (code : ErrCode) : (s.raise code).cmd = s.cmd := rfl
@[simp] theorem State.raise_status (s : State) (code : ErrCode) : (s.raise code).status = s.status.failed code := rfl
@[simp] theorem State.raise_inLen (s : State) (code : ErrCode) : (s.raise code).inLen = s.inLen := rfl
@[simp] theorem State.raise_outLen (s : State) (code : ErrCode) : (s.raise code).outLen = 0 := rfl
@[simp] theorem State.raise_inCap (s : State) (code : ErrCode) : (s.raise code).inCap = s.inCap := rfl
@[simp] theorem State.raise_outCap (s : State) (code : ErrCode) : (s.raise code).outCap = s.outCap := rfl
@[simp] theorem State.raise_inBuf (s : State) (code : ErrCode) : (s.raise code).inBuf = s.inBuf := rfl
@[simp] theorem State.raise_inStamp (s : State) (code : ErrCode) : (s.raise code).inStamp = s.inStamp := rfl
@[simp] theorem State.raise_outBuf (s : State) (code : ErrCode) : (s.raise code).outBuf = [] := rfl
@[simp] theorem State.raise_outStamp (s : State) (code : ErrCode) : (s.raise code).outStamp = s.nextDraw := rfl
@[simp] theorem State.raise_nextDraw (s : State) (code : ErrCode) : (s.raise code).nextDraw = s.nextDraw + 1 := rfl
@[simp] theorem State.raise_agenda (s : State) (code : ErrCode) : (s.raise code).agenda = s.agenda := rfl
@[simp] theorem State.raise_lastRead (s : State) (code : ErrCode) : (s.raise code).lastRead = s.lastRead := rfl

/-! ### A dropped write: `State.collide` -/

@[simp] theorem State.collide_cmd (s : State) : (s.collide).cmd = s.cmd := rfl
@[simp] theorem State.collide_status (s : State) : (s.collide).status = s.status.collided := rfl
@[simp] theorem State.collide_inLen (s : State) : (s.collide).inLen = s.inLen := rfl
@[simp] theorem State.collide_outLen (s : State) : (s.collide).outLen = s.outLen := rfl
@[simp] theorem State.collide_inCap (s : State) : (s.collide).inCap = s.inCap := rfl
@[simp] theorem State.collide_outCap (s : State) : (s.collide).outCap = s.outCap := rfl
@[simp] theorem State.collide_inBuf (s : State) : (s.collide).inBuf = s.inBuf := rfl
@[simp] theorem State.collide_inStamp (s : State) : (s.collide).inStamp = s.inStamp := rfl
@[simp] theorem State.collide_outBuf (s : State) : (s.collide).outBuf = s.outBuf := rfl
@[simp] theorem State.collide_outStamp (s : State) : (s.collide).outStamp = s.outStamp := rfl
@[simp] theorem State.collide_nextDraw (s : State) : (s.collide).nextDraw = s.nextDraw := rfl
@[simp] theorem State.collide_agenda (s : State) : (s.collide).agenda = s.agenda := rfl
@[simp] theorem State.collide_lastRead (s : State) : (s.collide).lastRead = s.lastRead := rfl

/-! ### Reset: `State.resetBlock` -/

@[simp] theorem State.resetBlock_cmd (s : State) : (s.resetBlock).cmd = 0 := rfl
@[simp] theorem State.resetBlock_status (s : State) : (s.resetBlock).status = Status.reset := rfl
@[simp] theorem State.resetBlock_inLen (s : State) : (s.resetBlock).inLen = 0 := rfl
@[simp] theorem State.resetBlock_outLen (s : State) : (s.resetBlock).outLen = 0 := rfl
@[simp] theorem State.resetBlock_inCap (s : State) : (s.resetBlock).inCap = s.inCap := rfl
@[simp] theorem State.resetBlock_outCap (s : State) : (s.resetBlock).outCap = s.outCap := rfl
@[simp] theorem State.resetBlock_inBuf (s : State) : (s.resetBlock).inBuf = [] := rfl
@[simp] theorem State.resetBlock_inStamp (s : State) : (s.resetBlock).inStamp = s.nextDraw := rfl
@[simp] theorem State.resetBlock_outBuf (s : State) : (s.resetBlock).outBuf = [] := rfl
@[simp] theorem State.resetBlock_outStamp (s : State) : (s.resetBlock).outStamp = s.nextDraw := rfl
@[simp] theorem State.resetBlock_nextDraw (s : State) : (s.resetBlock).nextDraw = s.nextDraw + 1 := rfl
@[simp] theorem State.resetBlock_agenda (s : State) : (s.resetBlock).agenda = s.agenda := rfl
@[simp] theorem State.resetBlock_lastRead (s : State) : (s.resetBlock).lastRead = s.lastRead := rfl

/-! ### A slot taken: `State.slotTaken` -/

@[simp] theorem State.slotTaken_cmd (s : State) : (s.slotTaken).cmd = s.cmd := rfl
@[simp] theorem State.slotTaken_status (s : State) : (s.slotTaken).status = s.status := rfl
@[simp] theorem State.slotTaken_inLen (s : State) : (s.slotTaken).inLen = s.inLen := rfl
@[simp] theorem State.slotTaken_outLen (s : State) : (s.slotTaken).outLen = s.outLen := rfl
@[simp] theorem State.slotTaken_inCap (s : State) : (s.slotTaken).inCap = s.inCap := rfl
@[simp] theorem State.slotTaken_outCap (s : State) : (s.slotTaken).outCap = s.outCap := rfl
@[simp] theorem State.slotTaken_inBuf (s : State) : (s.slotTaken).inBuf = s.inBuf := rfl
@[simp] theorem State.slotTaken_inStamp (s : State) : (s.slotTaken).inStamp = s.inStamp := rfl
@[simp] theorem State.slotTaken_outBuf (s : State) : (s.slotTaken).outBuf = s.outBuf := rfl
@[simp] theorem State.slotTaken_outStamp (s : State) : (s.slotTaken).outStamp = s.outStamp := rfl
@[simp] theorem State.slotTaken_nextDraw (s : State) : (s.slotTaken).nextDraw = s.nextDraw := rfl
@[simp] theorem State.slotTaken_agenda (s : State) : (s.slotTaken).agenda = s.agenda.tail := rfl
@[simp] theorem State.slotTaken_lastRead (s : State) : (s.slotTaken).lastRead = s.lastRead := rfl

/-! ### A host read's value: `State.returned` -/

@[simp] theorem State.returned_cmd (s : State) (id : Nat) (v : ReadValue) : (s.returned id v).cmd = s.cmd := rfl
@[simp] theorem State.returned_status (s : State) (id : Nat) (v : ReadValue) : (s.returned id v).status = s.status := rfl
@[simp] theorem State.returned_inLen (s : State) (id : Nat) (v : ReadValue) : (s.returned id v).inLen = s.inLen := rfl
@[simp] theorem State.returned_outLen (s : State) (id : Nat) (v : ReadValue) : (s.returned id v).outLen = s.outLen := rfl
@[simp] theorem State.returned_inCap (s : State) (id : Nat) (v : ReadValue) : (s.returned id v).inCap = s.inCap := rfl
@[simp] theorem State.returned_outCap (s : State) (id : Nat) (v : ReadValue) : (s.returned id v).outCap = s.outCap := rfl
@[simp] theorem State.returned_inBuf (s : State) (id : Nat) (v : ReadValue) : (s.returned id v).inBuf = s.inBuf := rfl
@[simp] theorem State.returned_inStamp (s : State) (id : Nat) (v : ReadValue) : (s.returned id v).inStamp = s.inStamp := rfl
@[simp] theorem State.returned_outBuf (s : State) (id : Nat) (v : ReadValue) : (s.returned id v).outBuf = s.outBuf := rfl
@[simp] theorem State.returned_outStamp (s : State) (id : Nat) (v : ReadValue) : (s.returned id v).outStamp = s.outStamp := rfl
@[simp] theorem State.returned_nextDraw (s : State) (id : Nat) (v : ReadValue) : (s.returned id v).nextDraw = s.nextDraw := rfl
@[simp] theorem State.returned_agenda (s : State) (id : Nat) (v : ReadValue) : (s.returned id v).agenda = s.agenda := rfl
@[simp] theorem State.returned_lastRead (s : State) (id : Nat) (v : ReadValue) : (s.returned id v).lastRead = some (id, v) := rfl

/-! ### A command word placed: `State.withFetchWord` -/

@[simp] theorem State.withFetchWord_cmd (s : State) (nbits w : Nat) : (s.withFetchWord nbits w).cmd = BitVec.ofNat 32 (w % 2 ^ nbits) := rfl
@[simp] theorem State.withFetchWord_status (s : State) (nbits w : Nat) : (s.withFetchWord nbits w).status = Status.accepted := rfl
@[simp] theorem State.withFetchWord_inLen (s : State) (nbits w : Nat) : (s.withFetchWord nbits w).inLen = s.inLen := rfl
@[simp] theorem State.withFetchWord_outLen (s : State) (nbits w : Nat) : (s.withFetchWord nbits w).outLen = 0 := rfl
@[simp] theorem State.withFetchWord_inCap (s : State) (nbits w : Nat) : (s.withFetchWord nbits w).inCap = s.inCap := rfl
@[simp] theorem State.withFetchWord_outCap (s : State) (nbits w : Nat) : (s.withFetchWord nbits w).outCap = s.outCap := rfl
@[simp] theorem State.withFetchWord_inBuf (s : State) (nbits w : Nat) : (s.withFetchWord nbits w).inBuf = s.inBuf := rfl
@[simp] theorem State.withFetchWord_inStamp (s : State) (nbits w : Nat) : (s.withFetchWord nbits w).inStamp = s.inStamp := rfl
@[simp] theorem State.withFetchWord_outBuf (s : State) (nbits w : Nat) : (s.withFetchWord nbits w).outBuf = s.outBuf := rfl
@[simp] theorem State.withFetchWord_outStamp (s : State) (nbits w : Nat) : (s.withFetchWord nbits w).outStamp = s.outStamp := rfl
@[simp] theorem State.withFetchWord_nextDraw (s : State) (nbits w : Nat) : (s.withFetchWord nbits w).nextDraw = s.nextDraw := rfl
@[simp] theorem State.withFetchWord_agenda (s : State) (nbits w : Nat) : (s.withFetchWord nbits w).agenda = .engine :: s.agenda := rfl
@[simp] theorem State.withFetchWord_lastRead (s : State) (nbits w : Nat) : (s.withFetchWord nbits w).lastRead = s.lastRead := rfl

/-! ### STATUS -/

@[simp] theorem Status.accepted_busy : Status.accepted.busy = true := rfl
@[simp] theorem Status.accepted_done : Status.accepted.done = false := rfl
@[simp] theorem Status.accepted_err : Status.accepted.err = false := rfl
@[simp] theorem Status.accepted_result : Status.accepted.result = false := rfl
@[simp] theorem Status.accepted_errCode : Status.accepted.errCode = .success := rfl
@[simp] theorem Status.accepted_coll : Status.accepted.coll = false := rfl
@[simp] theorem Status.reset_busy : Status.reset.busy = false := rfl
@[simp] theorem Status.reset_done : Status.reset.done = false := rfl
@[simp] theorem Status.reset_err : Status.reset.err = false := rfl
@[simp] theorem Status.reset_result : Status.reset.result = false := rfl
@[simp] theorem Status.reset_errCode : Status.reset.errCode = .success := rfl
@[simp] theorem Status.reset_coll : Status.reset.coll = false := rfl
@[simp] theorem Status.succeeded_busy (t : Status) (r : Bool) : (t.succeeded r).busy = false := rfl
@[simp] theorem Status.succeeded_done (t : Status) (r : Bool) : (t.succeeded r).done = true := rfl
@[simp] theorem Status.succeeded_err (t : Status) (r : Bool) : (t.succeeded r).err = false := rfl
@[simp] theorem Status.succeeded_result (t : Status) (r : Bool) : (t.succeeded r).result = r := rfl
@[simp] theorem Status.succeeded_errCode (t : Status) (r : Bool) : (t.succeeded r).errCode = .success := rfl
@[simp] theorem Status.succeeded_coll (t : Status) (r : Bool) : (t.succeeded r).coll = t.coll := rfl
@[simp] theorem Status.failed_busy (t : Status) (c : ErrCode) : (t.failed c).busy = false := rfl
@[simp] theorem Status.failed_done (t : Status) (c : ErrCode) : (t.failed c).done = true := rfl
@[simp] theorem Status.failed_err (t : Status) (c : ErrCode) : (t.failed c).err = true := rfl
@[simp] theorem Status.failed_result (t : Status) (c : ErrCode) : (t.failed c).result = false := rfl
@[simp] theorem Status.failed_errCode (t : Status) (c : ErrCode) : (t.failed c).errCode = c := rfl
@[simp] theorem Status.failed_coll (t : Status) (c : ErrCode) : (t.failed c).coll = t.coll := rfl
@[simp] theorem Status.collided_busy (t : Status) : (t.collided).busy = t.busy := rfl
@[simp] theorem Status.collided_done (t : Status) : (t.collided).done = t.done := rfl
@[simp] theorem Status.collided_err (t : Status) : (t.collided).err = t.err := rfl
@[simp] theorem Status.collided_result (t : Status) : (t.collided).result = t.result := rfl
@[simp] theorem Status.collided_errCode (t : Status) : (t.collided).errCode = t.errCode := rfl
@[simp] theorem Status.collided_coll (t : Status) : (t.collided).coll = true := rfl

end Sys2Proof.Machine
end

