-- ==== Sys2Proof/Laws/Ops.lean ====
section
/-! SUPPORT. For each shared operation, everything it can do, said once: the bytes the buffers hold after it, the two ends
of a command, the host's accesses. -/

namespace Sys2Proof.Machine

/-! ### The bytes of the buffers after an update -/

/-- `inByte` depends only on IN_BUF and the number of its draw. -/
theorem State.inByte_congr {s t : State} (hb : t.inBuf = s.inBuf) (hs : t.inStamp = s.inStamp) (i : Nat) :
    t.inByte i = s.inByte i := by
  simp only [State.inByte, hb, hs]

/-- `outByte` depends only on OUT_BUF and the number of its draw. -/
theorem State.outByte_congr {s t : State} (hb : t.outBuf = s.outBuf) (hs : t.outStamp = s.outStamp) (i : Nat) :
    t.outByte i = s.outByte i := by
  simp only [State.outByte, hb, hs]

@[simp] theorem State.complete_inByte (s : State) (o : List Byte) (r : Bool) (i : Nat) :
    (s.complete o r).inByte i = s.inByte i := rfl

@[simp] theorem State.raise_inByte (s : State) (c : ErrCode) (i : Nat) : (s.raise c).inByte i = s.inByte i := rfl

@[simp] theorem State.accept_inByte (s : State) (v : Word) (i : Nat) : (s.accept v).inByte i = s.inByte i := rfl

@[simp] theorem State.collide_inByte (s : State) (i : Nat) : s.collide.inByte i = s.inByte i := rfl

/-- After a success completion OUT_BUF holds the output, and beyond it the completion's draw (30_encoding R78). -/
theorem State.complete_outByte (s : State) (o : List Byte) (r : Bool) (i : Nat) :
    (s.complete o r).outByte i = o[i]?.getD (Config.outByte s.nextDraw i) := by
  simp only [State.outByte, State.complete_outBuf, State.complete_outStamp, Memory.read_ofBytes]
  cases o[i]? <;> rfl

/-- After an error completion every byte of OUT_BUF is the completion's draw (60_exceptions R183). -/
@[simp] theorem State.raise_outByte (s : State) (c : ErrCode) (i : Nat) :
    (s.raise c).outByte i = Config.outByte s.nextDraw i := rfl

/-- After a reset every byte of both buffers is the reset's draw (70_reset_and_hazards R213). -/
@[simp] theorem State.resetBlock_inByte (s : State) (i : Nat) : s.resetBlock.inByte i = Config.inByte s.nextDraw i := rfl

@[simp] theorem State.resetBlock_outByte (s : State) (i : Nat) :
    s.resetBlock.outByte i = Config.outByte s.nextDraw i := rfl

/-! ### The operand and the ends of a command -/

@[simp] theorem State.input_length (s : State) : s.input.length = s.inLen.toNat := by simp [State.input]

theorem withInput_inRange {s : State} (h : s.inLen.toNat ≤ s.inCap.toNat) (run : List Byte → State) :
    withInput s run = .next (run s.input) := by
  simp [withInput, State.inRange, h]

theorem withInput_outOfRange {s : State} (h : s.inCap.toNat < s.inLen.toNat) (run : List Byte → State) :
    withInput s run = .next (s.raise .lengthRange) := by
  simp [withInput, State.inRange, Nat.not_le.mpr h]

/-- Every legal command answers a next state, and it ends in exactly one completion: an error, or a success with some
output and result bit (30_encoding R77). -/
theorem exec_cases (i : Instr) (s : State) :
    (∃ c, c ≠ .success ∧ exec i s = .next (s.raise c)) ∨ (∃ o r, exec i s = .next (s.complete o r)) := by
  have range : ∀ run : List Byte → State,
      (∀ inp, (∃ c, c ≠ .success ∧ run inp = s.raise c) ∨ ∃ o r, run inp = s.complete o r) →
      (∃ c, c ≠ .success ∧ withInput s run = .next (s.raise c)) ∨ (∃ o r, withInput s run = .next (s.complete o r)) := by
    intro run h
    by_cases hr : s.inLen.toNat ≤ s.inCap.toNat
    · rw [withInput_inRange hr]
      rcases h s.input with ⟨c, hc, h⟩ | ⟨o, r, h⟩
      · exact .inl ⟨c, hc, by rw [h]⟩
      · exact .inr ⟨o, r, by rw [h]⟩
    · exact .inl ⟨.lengthRange, by decide, withInput_outOfRange (Nat.lt_of_not_le hr) run⟩
  have dec : ∀ e : Except ErrCode (List Byte), e ≠ .error .success →
      (∃ c, c ≠ .success ∧ s.finish e = s.raise c) ∨ ∃ o r, s.finish e = s.complete o r := by
    intro e he
    cases e with
    | error c => exact .inl ⟨c, fun h => he (h ▸ rfl), rfl⟩
    | ok o => exact .inr ⟨o, false, rfl⟩
  cases i with
  | enc64 c u => exact range _ fun inp => .inr ⟨_, _, rfl⟩
  | enc64us => exact range _ fun inp => .inr ⟨_, _, rfl⟩
  | dec64 =>
    refine range _ fun inp => dec _ ?_
    unfold dec64Result dec64Stripped
    simp only []
    split_ifs <;> simp
  | isb64 => exact range _ fun inp => .inr ⟨_, _, rfl⟩
  | enchex l => exact range _ fun inp => .inr ⟨_, _, rfl⟩
  | dechex =>
    refine range _ fun inp => dec _ ?_
    unfold decHexResult
    split_ifs <;> simp

/-! ### The host's accesses -/

@[simp] theorem State.regValue_cmd (s : State) : s.regValue 0x00 = s.cmd := rfl
@[simp] theorem State.regValue_status (s : State) : s.regValue 0x04 = s.status.toWord := rfl
@[simp] theorem State.regValue_inLen (s : State) : s.regValue 0x08 = s.inLen := rfl
@[simp] theorem State.regValue_outLen (s : State) : s.regValue 0x0C = s.outLen := rfl
@[simp] theorem State.regValue_inCap (s : State) : s.regValue 0x10 = s.inCap := rfl
@[simp] theorem State.regValue_outCap (s : State) : s.regValue 0x14 = s.outCap := rfl

/-- Every offset from 0x18 on reads as zero (10_state R29). -/
theorem State.regValue_reserved (s : State) {off : Nat} (h : 0x18 ≤ off) : s.regValue off = 0 := by
  unfold State.regValue
  repeat rw [if_neg (by omega)]

theorem hostAccess_admitted {a : HostAccess} {s : State} (h : accessFault a s = none) (id : Nat) :
    hostAccess id a s = .next (accessEffect id a s) := by
  simp [hostAccess, h]

theorem hostAccess_notAdmitted {a : HostAccess} {s : State} {f : Fault} (h : accessFault a s = some f) (id : Nat) :
    hostAccess id a s = .fault f := by
  simp [hostAccess, h]

/-- Everything an admitted access can do to the block: nothing but the value a host learned (and a used draw), or one of
the four writes. -/
theorem accessEffect_cases (id : Nat) (a : HostAccess) (s : State) :
    (accessEffect id a s = s) ∨ (∃ v, accessEffect id a s = s.returned id v) ∨
    (∃ v, accessEffect id a s = { s.returned id v with nextDraw := s.nextDraw + 1 }) ∨
    (s.status.busy = true ∧ accessEffect id a s = s.collide) ∨
    (s.status.busy = false ∧ ∃ v, accessEffect id a s = s.accept v) ∨
    (s.status.busy = false ∧ ∃ v, accessEffect id a s = { s with inLen := v }) ∨
    (s.status.busy = false ∧ ∃ i b, a = .inWrite i b ∧ accessEffect id a s = { s with inBuf := Memory.write s.inBuf i b }) := by
  cases a with
  | regRead off => exact .inr (.inl ⟨_, rfl⟩)
  | inRead i => exact .inr (.inl ⟨_, rfl⟩)
  | regReadNarrow w off => exact .inl rfl
  | regWriteNarrow w off v => exact .inl rfl
  | outWrite i b => exact .inl rfl
  | outRead i =>
    cases hb : s.status.busy with
    | true => exact .inr (.inr (.inl ⟨_, by simp [accessEffect, State.outReturned, hb]; rfl⟩))
    | false => exact .inr (.inl ⟨_, by simp [accessEffect, State.outReturned, hb]; rfl⟩)
  | inWrite i b =>
    cases hb : s.status.busy with
    | true => exact .inr (.inr (.inr (.inl ⟨rfl, by simp [accessEffect, State.inWritten, hb]⟩)))
    | false =>
      exact .inr (.inr (.inr (.inr (.inr (.inr ⟨rfl, i, b, rfl, by simp [accessEffect, State.inWritten, hb]⟩)))))
  | regWrite off v =>
    by_cases h0 : off = 0x00
    · cases hb : s.status.busy with
      | true => exact .inr (.inr (.inr (.inl ⟨rfl, by simp [accessEffect, State.regWritten, State.writeCmd, h0, hb]⟩)))
      | false =>
        exact .inr (.inr (.inr (.inr (.inl ⟨rfl, v, by simp [accessEffect, State.regWritten, State.writeCmd, h0, hb]⟩))))
    · by_cases h8 : off = 0x08
      · cases hb : s.status.busy with
        | true =>
          exact .inr (.inr (.inr (.inl ⟨rfl, by simp [accessEffect, State.regWritten, State.writeInLen, h8, hb]⟩)))
        | false =>
          exact .inr (.inr (.inr (.inr (.inr (.inl
            ⟨rfl, v, by simp [accessEffect, State.regWritten, State.writeInLen, h8, hb]⟩)))))
      · exact .inl (by simp [accessEffect, State.regWritten, h0, h8])

/-! ### One step -/

/-- With nothing on the agenda there is no slot to take. -/
theorem State.slotTaken_of_nil {s : State} (h : s.agenda = []) : s.slotTaken = s := by
  cases s
  simp_all [State.slotTaken]

/-- With an event on the agenda, taking the slot leaves the rest. -/
theorem State.slotTaken_of_cons {s : State} {e : Event} {rest : List Event} (h : s.agenda = e :: rest) :
    ({ s with agenda := rest } : State) = s.slotTaken := by
  simp [State.slotTaken, h]

/-- The engine's step answers a next state: an error completion or a success completion. -/
theorem engineStep_cases (s : State) :
    (∃ c, c ≠ .success ∧ engineStep s = .next (s.raise c)) ∨ (∃ o r, engineStep s = .next (s.complete o r)) := by
  unfold engineStep
  split
  · exact exec_cases _ s
  · exact .inl ⟨.illegalCommand, by decide, rfl⟩

/-- Everything one step can do when it answers a next state. -/
theorem step_cases {s t : State} (h : step s = .next t) :
    s.configOk = true ∧
    ((s.status.busy = true ∧ (s.agenda = [] ∨ ∃ rest, s.agenda = .engine :: rest) ∧ engineStep s.slotTaken = .next t) ∨
     (s.status.busy = false ∧ (s.agenda = [] ∨ ∃ rest, s.agenda = .engine :: rest) ∧ t = s.slotTaken) ∨
     (∃ rest, s.agenda = .reset :: rest ∧ t = s.slotTaken.resetBlock) ∨
     (∃ id a rest, s.agenda = .host id a :: rest ∧ accessFault a s.slotTaken = none ∧ t = accessEffect id a s.slotTaken)) := by
  have hc : s.configOk = true := by
    by_contra hc
    simp [step, blockStep, hc] at h
  refine ⟨hc, ?_⟩
  simp only [step, blockStep, hc, if_true] at h
  have slot : ∀ u : State, u = s.slotTaken → engineSlot u = .next t →
      (s.status.busy = true ∧ engineStep s.slotTaken = .next t) ∨ (s.status.busy = false ∧ t = s.slotTaken) := by
    rintro u rfl hu
    unfold engineSlot at hu
    split at hu
    · next hb => exact .inl ⟨hb, hu⟩
    · next hb => exact .inr ⟨by simpa using hb, by simpa using hu.symm⟩
  split at h
  · next ha =>
    rcases slot s (State.slotTaken_of_nil ha).symm h with ⟨hb, hs⟩ | ⟨hb, hs⟩
    · exact .inl ⟨hb, .inl ha, hs⟩
    · exact .inr (.inl ⟨hb, .inl ha, hs⟩)
  · next e rest ha =>
    rw [State.slotTaken_of_cons ha] at h
    cases e with
    | engine =>
      rcases slot _ rfl h with ⟨hb, hs⟩ | ⟨hb, hs⟩
      · exact .inl ⟨hb, .inr ⟨rest, ha⟩, hs⟩
      · exact .inr (.inl ⟨hb, .inr ⟨rest, ha⟩, hs⟩)
    | reset => exact .inr (.inr (.inl ⟨rest, ha, by simpa [eventStep] using h.symm⟩))
    | host id a =>
      refine .inr (.inr (.inr ⟨id, a, rest, ha, ?_⟩))
      simp only [eventStep, hostAccess] at h
      split at h
      · cases h
      · next hf => exact ⟨hf, by simpa using h.symm⟩

end Sys2Proof.Machine
end

