-- ==== Sys2Proof/Laws/PerInstr.lean ====
section
/-! SUPPORT. One lemma per constructor of `Instr` for the family `EncodedWordLegal`: the word of every command is a legal
word in the sense of 30_encoding R73, which WellFormed.lean states independently of the decoder and the encoder. -/

namespace Sys2Proof.Laws.EncodedWordLegal

/-- The word of the command is legal (30_encoding R73). -/
def Statement (i : Instr) : Prop := legalWord (encode i) = true

theorem enc64 (c u : Bool) : Statement (.enc64 c u) := by
  cases c <;> cases u <;> exact rfl
theorem enc64us : Statement .enc64us := rfl
theorem dec64 : Statement .dec64 := rfl
theorem isb64 : Statement .isb64 := rfl
theorem enchex (l : Bool) : Statement (.enchex l) := by
  cases l <;> exact rfl
theorem dechex : Statement .dechex := rfl

end Sys2Proof.Laws.EncodedWordLegal
end

