-- ==== Sys2Proof/Tests/Slice0.lean ====
section
/-! SUPPORT. The model's own tests, each on one small state and at most one step of a command. Expected values come from
spec/95_test_vectors.md (the vector is named in each comment) or from the rule named. After them, one witness theorem for
every obligation that has hypotheses. -/

namespace Sys2Proof.Tests

open Sys2Proof.Machine Sys2Proof.Claims

/-! ### Helpers -/

/-- Bytes from plain numbers. -/
def bytes (l : List Nat) : List Byte := l.map (BitVec.ofNat 8)

/-- An idle block just after reset whose IN_BUF and IN_LEN hold `text`. -/
def idle (text : List Byte) : State :=
  { State.reset with inBuf := Memory.ofBytes text, inLen := BitVec.ofNat 32 text.length }

/-- The same block with the command word `w` accepted. -/
def pending (w : Word) (text : List Byte) : State := (idle text).accept w

/-- What a host reads after the answer: STATUS, OUT_LEN and the defined bytes of OUT_BUF. -/
def seen : Answer → Option (Word × Word × List (BitVec 8))
  | .next t => some (t.status.toWord, t.outLen, t.outBuf.map Prod.snd)
  | .fault _ => none
  | .refused _ => none

/-- The fault of an answer. -/
def faultOf : Answer → Option Fault
  | .next _ => none
  | .fault f => some f
  | .refused _ => none

/-- The refusal of an answer. -/
def refusalOf : Answer → Option Refusal
  | .next _ => none
  | .fault _ => none
  | .refused r => some r

/-- The block with one access by host 7 on its agenda. -/
def asked (s : State) (a : HostAccess) : State := { s with agenda := [.host 7 a] }

/-- A field of the next state. -/
def after {α : Type} (f : State → α) : Answer → Option α
  | .next t => some (f t)
  | .fault _ => none
  | .refused _ => none

/-! ### Ill-formed terms are refused, one for each check -/

/-- Bit 4 set (V156). -/
theorem test_wf_low_reserved : legalWord 0x00000011 = false ∧ decode 0x00000011 = .error .reservedBits := by decide
/-- Bit 11 set (V157). -/
theorem test_wf_high_reserved : legalWord 0x00000801 = false ∧ decode 0x00000801 = .error .reservedBits := by decide
/-- Bit 31 set (V158). -/
theorem test_wf_top_reserved : legalWord 0x80000006 = false ∧ decode 0x80000006 = .error .reservedBits := by decide
/-- OP 0x0, 0x7 and 0xF (V150, V151, V152). -/
theorem test_wf_op : legalWord 0 = false ∧ decode 0 = .error .reservedOp ∧ decode 7 = .error .reservedOp ∧
    decode 15 = .error .reservedOp := by decide
/-- L on ENC64, C on DEC64, C on ENCHEX, options on ENC64US (V153, V154, V155, V159). -/
theorem test_wf_options : legalWord 0x401 = false ∧ legalWord 0x103 = false ∧ legalWord 0x505 = false ∧
    legalWord 0x702 = false ∧ decode 0x401 = .error .optionBits ∧ decode 0x103 = .error .optionBits ∧
    decode 0x505 = .error .optionBits ∧ decode 0x702 = .error .optionBits := by decide
/-- IN_CAP = 0, and OUT_CAP one below OUTMAX(64) = 128 (00_scope R6, R7): the step refuses. -/
theorem test_wf_config :
    refusalOf (step { State.reset with inCap := 0 }) = some .illFormedConfig ∧
    refusalOf (step { State.reset with outCap := 127 }) = some .illFormedConfig ∧
    refusalOf (step State.reset) = none := by decide
/-- The configuration of 95_test_vectors section 3: OUTMAX(64) = 128; and of one byte, m = 4, OUTMAX(1) = 6. -/
theorem test_outMax : outMax 64 = 128 ∧ outMax 1 = 6 := by decide

/-! ### Decoding, each word written out bit by bit from 30_encoding R71: zeros, L, U, C, zeros, OP -/

theorem test_decode_enc64 :
    decode 0b000000000000000000000_0_1_1_0000_0001 = .ok (.enc64 true true) ∧
    decode 0b000000000000000000000_0_0_1_0000_0001 = .ok (.enc64 true false) ∧
    decode 0b000000000000000000000_0_1_0_0000_0001 = .ok (.enc64 false true) := by decide
theorem test_decode_enc64us : decode 0b000000000000000000000_0_0_0_0000_0010 = .ok .enc64us := by decide
theorem test_decode_dec64 : decode 0b000000000000000000000_0_0_0_0000_0011 = .ok .dec64 := by decide
theorem test_decode_isb64 : decode 0b000000000000000000000_0_0_0_0000_0100 = .ok .isb64 := by decide
theorem test_decode_enchex :
    decode 0b000000000000000000000_1_0_0_0000_0101 = .ok (.enchex true) ∧
    decode 0b000000000000000000000_0_0_0_0000_0101 = .ok (.enchex false) := by decide
theorem test_decode_dechex : decode 0b000000000000000000000_0_0_0_0000_0110 = .ok .dechex := by decide
/-- The numbering of the opcode table: the low bits of the one word. -/
theorem test_decodeTableWord : decodeTableWord 32 0x405 = some (.enchex true) ∧ decodeTableWord 32 0 = none := by decide
/-- A placed word is the very next thing that runs, from reset with IN_LEN = 0 (V164, V110, V130). -/
theorem test_withFetchWord :
    [0x101, 2, 3, 4, 0x405, 6, 7].map (fun w => seen (step (State.reset.withFetchWord 32 w))) =
      [some (0x02, 0, []), some (0x02, 0, []), some (0x02, 0, []), some (0x0A, 0, []), some (0x02, 0, []),
       some (0x02, 0, []), some (0x86, 0, [])] := by decide

/-! ### The commands, one step each -/

/-- V29, "std": FB FF gives "+/8=". -/
theorem test_enc64_std :
    seen (step (pending 0x001 (bytes [0xFB, 0xFF]))) = some (2, 4, bytes [0x2B, 0x2F, 0x38, 0x3D]) := by decide
/-- V28, "url chunked": FF gives "_w" CR LF. -/
theorem test_enc64_url_chunked :
    seen (step (pending 0x301 (bytes [0xFF]))) = some (2, 4, bytes [0x5F, 0x77, 0x0D, 0x0A]) := by decide
/-- V38: the text of 58 zero bytes, 80 characters, in lines of 76 and 4, each with its CR LF. -/
theorem test_chunk_boundary :
    chunk (List.replicate 80 0x41) =
      List.replicate 76 0x41 ++ [0x0D, 0x0A] ++ List.replicate 4 0x41 ++ [0x0D, 0x0A] := by decide
/-- V37: 76 characters end in exactly one CR LF. -/
theorem test_chunk_exact : chunk (List.replicate 76 0x41) = List.replicate 76 0x41 ++ [0x0D, 0x0A] := by decide
/-- 40_base64 R105: "Ma" gives "TWE". -/
theorem test_enc64us : seen (step (pending 0x002 (bytes [0x4D, 0x61]))) = some (2, 3, bytes [0x54, 0x57, 0x45]) := by
  decide
/-- V61: line breaks anywhere, "T\rW\nE=" gives 4D 61. -/
theorem test_dec64_line_breaks :
    seen (step (pending 0x003 (bytes [0x54, 0x0D, 0x57, 0x0A, 0x45, 0x3D]))) = some (2, 2, bytes [0x4D, 0x61]) := by
  decide
/-- V75, V83, V87 and V67: the three errors in their order, and mixed alphabets. -/
theorem test_dec64_errors :
    dec64Result (ascii "A===") = .error .malformedPadding ∧ dec64Result (ascii "TWFu$") = .error .invalidLength ∧
    dec64Result (ascii "TQ$=") = .error .invalidCharacter ∧
    dec64Result (ascii "-/+_") = .ok (bytes [0xFB, 0xFF, 0xBF]) := by decide
/-- V141: the space is stripped, so "TW E=" is true. -/
theorem test_isb64_true : seen (step (pending 0x004 (ascii "TW E="))) = some (0x0A, 0, []) := by decide
/-- V134 and V144: "TWE==" and a byte above 0x7F are false. -/
theorem test_isb64_false :
    isb64Result (ascii "TWE==") = false ∧ isb64Result (ascii "TWFu" ++ [0x80]) = false := by decide
/-- V105: the high nibble first, lower case. -/
theorem test_enchex_lower : seen (step (pending 0x405 (bytes [0x9F]))) = some (2, 2, bytes [0x39, 0x66]) := by decide
/-- V102, upper case. -/
theorem test_enchex_upper :
    seen (step (pending 0x005 (bytes [0x4D, 0x61]))) = some (2, 4, bytes [0x34, 0x44, 0x36, 0x31]) := by decide
/-- V115: "FfEe" gives FF EE. -/
theorem test_dechex : seen (step (pending 0x006 (ascii "FfEe"))) = some (2, 2, bytes [0xFF, 0xEE]) := by decide
/-- V117 and V124: an odd length first; the neighbours of the digits are no digits. -/
theorem test_dechex_errors :
    seen (step (pending 0x006 (ascii "z"))) = some (0x26, 0, []) ∧
    seen (step (pending 0x006 (bytes [0x40, 0x47, 0x60, 0x67]))) = some (0x16, 0, []) := by decide

/-! ### Errors of every command (V150, V161, V162) -/

theorem test_illegal : seen (step (pending 0x103 (ascii "TWFu"))) = some (0x86, 0, []) := by decide
theorem test_lengthRange :
    seen (step { pending 0x004 [] with inLen := 65 }) = some (0x96, 0, []) ∧
    seen (step { pending 0x007 [] with inLen := 65 }) = some (0x86, 0, []) := by decide

/-! ### The hosts' accesses and reset -/

/-- V174 and V172: INCAP ignores a write and reads IN_CAP; a reserved offset reads zero. -/
theorem test_read_only :
    after State.inCap (step (asked State.reset (.regWrite 0x10 0))) = some 64 ∧
    after State.lastRead (step (asked State.reset (.regRead 0x10))) = some (some (7, .word 64)) ∧
    after State.lastRead (step (asked State.reset (.regRead 0xFC))) = some (some (7, .word 0)) := by decide
/-- V178 and V181: IN_LEN keeps its value while busy and COLL is set; a write to 0x40 is ignored. -/
theorem test_write_while_busy :
    after (fun t => (t.inLen, t.status.toWord)) (step (asked (pending 3 (ascii "TWFu")) (.regWrite 0x08 0)))
      = some (4, 0x101) ∧
    after (fun t => t.status.toWord) (step (asked (pending 3 []) (.regWrite 0x40 0))) = some 1 := by decide
/-- V185 and 20_memory R52: accesses that are not admitted. -/
theorem test_not_admitted :
    faultOf (step (asked State.reset (.outRead 128))) = some .outOutOfSpace ∧
    faultOf (step (asked State.reset (.inWrite 64 0))) = some .inOutOfSpace ∧
    faultOf (step (asked State.reset (.outWrite 0 0))) = some .outWriteNotAdmitted ∧
    faultOf (step (asked State.reset (.regRead 0x102))) = some .regOutOfSpace ∧
    faultOf (step (asked State.reset (.regRead 0x02))) = some .regUnaligned ∧
    faultOf (step (asked State.reset (.regWriteNarrow .bits16 0x08 1))) = some .regNarrow := by decide
/-- V183: a reset while busy. -/
theorem test_reset_while_busy :
    after (fun t => (t.cmd, t.status.toWord, t.inBuf.length)) (step { pending 3 (ascii "TWFu") with agenda := [.reset] })
      = some (0, 0, 0) := by decide
/-- 30_encoding R79, R80: spellings, and the primitives of `ws` and `run`. -/
theorem test_script :
    commandOf "ENC64.CU" = some (.enc64 true true) ∧ commandOf "ENC64.UC" = none ∧
    expandLine (.ws (ascii "M")) = [.inWrite 0 0x4D, .regWrite 0x08 1] ∧
    expandLine (.run (.command .dec64) 1) = [.regWrite 0x00 3, .regRead 0x04, .regRead 0x04] := by decide
/-- 30_encoding R80: the escapes of `ws`. -/
theorem test_textBytes :
    textBytes "A\\r\\x4f".toList = some [0x41, 0x0D, 0x4F] ∧ textBytes "\\q".toList = none := by decide
/-- 20_memory R57: byte lane 1 of a register is bits 15:8. -/
theorem test_byte_lane : State.regByteLane { State.reset with inLen := 0x12345678 } 0x08 1 = 0x56 := by decide

/-! ### Witnesses: for each obligation with hypotheses, states and operands that meet them all together -/

/-- StepRunsDecodedCommand, with an empty agenda and with a slot on it. -/
theorem witness_StepRunsDecodedCommand :
    ((pending 3 []).configOk = true ∧ (pending 3 []).engineTurn ∧ decode (pending 3 []).cmd = .ok .dec64) ∧
    (let s := State.reset.withFetchWord 32 5
     s.configOk = true ∧ s.engineTurn ∧ decode s.cmd = .ok (.enchex false)) :=
  ⟨⟨by decide, ⟨rfl, .inl rfl⟩, by decide⟩, ⟨by decide, ⟨rfl, .inr ⟨[], rfl⟩⟩, by decide⟩⟩

/-- IllegalWordCompletesWithIllegalCommand, with IN_LEN beyond IN_CAP. -/
theorem witness_IllegalWordCompletesWithIllegalCommand :
    let s := { pending 7 [] with inLen := 65 }
    s.configOk = true ∧ s.engineTurn ∧ legalWord s.cmd = false := ⟨by decide, ⟨rfl, .inl rfl⟩, by decide⟩

/-- OutputNeverExceedsOutMax: texts that decode. -/
theorem witness_OutputNeverExceedsOutMax :
    dec64Result (ascii "TQ") = .ok [0x4D] ∧ decHexResult (ascii "4D") = .ok [0x4D] ∧ 63 ≤ 64 := by decide

/-- IdleBlockKeepsAllState, both clauses. -/
theorem witness_IdleBlockKeepsAllState :
    (State.reset.configOk = true ∧ State.reset.status.busy = false ∧ State.reset.agenda = []) ∧
    (let s := { State.reset with agenda := [.engine] }
     s.configOk = true ∧ s.status.busy = false ∧ s.agenda = .engine :: []) := by decide

/-- PendingCommandEndsWithinAgenda, with two accesses before the end, one of them at the last IN index. -/
theorem witness_PendingCommandEndsWithinAgenda :
    let s := { pending 3 [] with agenda := [.host 0 (.inWrite 63 1), .host 1 (.regRead 0xFC)] }
    s.configOk = true ∧ agendaAdmitted s ∧ s.status.busy = true := by
  refine ⟨by decide, ?_, rfl⟩
  intro e he
  rcases List.mem_cons.mp he with rfl | he
  · exact rfl
  · rcases List.mem_cons.mp he with rfl | he
    · exact rfl
    · cases he

/-- Any access is the next event of a well-formed block: the hypothesis `Accessing`. -/
theorem witness_accessing (s : State) (h : s.configOk = true) (a : HostAccess) : Accessing (asked s a) 7 a :=
  ⟨h, [], rfl⟩

/-- AccessFaultsExactlyOutsideItsDomain: the edges of each domain, inside and outside. -/
theorem witness_AccessFaultsExactlyOutsideItsDomain :
    (Accessing (asked State.reset (.regRead 0xFC)) 7 (.regRead 0xFC) ∧ InDomain State.reset (.regRead 0xFC)) ∧
    InDomain State.reset (.inWrite 63 0) ∧ ¬ InDomain State.reset (.inWrite 64 0) ∧
    InDomain State.reset (.outRead 127) ∧ ¬ InDomain State.reset (.outRead 128) ∧
    ¬ InDomain State.reset (.regWrite 0x100 0) ∧ ¬ InDomain State.reset (.regRead 0xFE) ∧
    step (asked State.reset (.inRead 64)) = .fault .inOutOfSpace :=
  ⟨⟨witness_accessing _ (by decide) _, by decide, by decide⟩, by show 63 < 64; decide, by show ¬ 64 < 64; decide,
   by show 127 < 128; decide, by show ¬ 128 < 128; decide, fun h => absurd h.2 (by decide), fun h => absurd h.2 (by decide),
   rfl⟩

/-- CommandWriteIsAcceptedWhenIdle, idle and busy. -/
theorem witness_CommandWriteIsAcceptedWhenIdle :
    (let s := asked (idle []) (.regWrite 0 0xFFFFFFFF)
     s.configOk = true ∧ s.agenda = .host 7 (.regWrite 0x00 0xFFFFFFFF) :: [] ∧ s.status.busy = false) ∧
    (let s := asked (pending 3 []) (.regWrite 0 1)
     s.configOk = true ∧ s.agenda = .host 7 (.regWrite 0x00 1) :: [] ∧ s.status.busy = true) := by decide

/-- CmdHoldsTheLastAcceptedWord: writes while idle and while busy, a read, an engine step, a step that changes CMD. -/
theorem witness_CmdHoldsTheLastAcceptedWord :
    after State.cmd (step (asked (idle []) (.regWrite 0 7))) = some 7 ∧
    after State.cmd (step (asked (pending 3 []) (.regWrite 0 7))) = some 3 ∧
    after State.lastRead (step (asked (pending 3 []) (.regRead 0))) = some (some (7, .word 3)) ∧
    after State.cmd (engineStep (pending 3 [])) = some 3 ∧ (idle []).cmd = 0 := by decide

/-- InLenHoldsTheLastStoredValue: writes while idle and while busy, a read, an engine step, a length beyond IN_CAP. -/
theorem witness_InLenHoldsTheLastStoredValue :
    after State.inLen (step (asked (idle []) (.regWrite 8 0xFFFFFFFF))) = some 0xFFFFFFFF ∧
    after State.inLen (step (asked (pending 3 []) (.regWrite 8 7))) = some 0 ∧
    after State.lastRead (step (asked (idle (ascii "ab")) (.regRead 8))) = some (some (7, .word 2)) ∧
    after State.inLen (engineStep (pending 3 (ascii "TQ"))) = some 2 ∧
    (let s := { pending 3 [] with inLen := 65 }
     s.inCap.toNat < s.inLen.toNat) := by decide

/-- CapacityRegistersAreConstant: reads and writes of both registers answer a next state. -/
theorem witness_CapacityRegistersAreConstant :
    after State.lastRead (step (asked (idle []) (.regRead 0x10))) = some (some (7, .word 64)) ∧
    after State.lastRead (step (asked (idle []) (.regRead 0x14))) = some (some (7, .word 128)) ∧
    after State.outCap (step (asked (idle []) (.regWrite 0x14 5))) = some 128 := by decide

/-- ReservedOffsetsReadZeroAndIgnoreWrites: the first and the last reserved offset, idle and busy. -/
theorem witness_ReservedOffsetsReadZeroAndIgnoreWrites :
    (0x18 ≤ 0x18 ∧ 0x18 ≤ 0xFC ∧ 0x18 % 4 = 0 ∧ Accessing (asked (idle []) (.regRead 0x18)) 7 (.regRead 0x18)) ∧
    (0x18 ≤ 0xFC ∧ 0xFC ≤ 0xFC ∧ 0xFC % 4 = 0 ∧ Accessing (asked (pending 3 []) (.regWrite 0xFC 9)) 7 (.regWrite 0xFC 9)) :=
  ⟨⟨by decide, by decide, by decide, witness_accessing _ (by decide) _⟩,
   ⟨by decide, by decide, by decide, witness_accessing _ (by decide) _⟩⟩

/-- StatusReadsItsFieldsAndIgnoresWrites: a read and a write of STATUS. -/
theorem witness_StatusReadsItsFieldsAndIgnoresWrites :
    Accessing (asked (pending 3 []) (.regRead 4)) 7 (.regRead 0x04) ∧
    Accessing (asked (idle []) (.regWrite 4 0)) 7 (.regWrite 0x04 0) :=
  ⟨witness_accessing _ (by decide) _, witness_accessing _ (by decide) _⟩

/-- OutLenReadsAsStoredAndIgnoresWrites: a read while idle that returns a length that is not 0, a read while busy, a write,
an accepted command, an engine step that ends in an error. -/
theorem witness_OutLenReadsAsStoredAndIgnoresWrites :
    (let s := asked ((pending 3 (ascii "TQ")).complete [0x4D] false) (.regRead 0x0C)
     Accessing s 7 (.regRead 0x0C) ∧ s.status.busy = false ∧
       after State.lastRead (step s) = some (some (7, .word 1))) ∧
    Accessing (asked (pending 3 []) (.regRead 0x0C)) 7 (.regRead 0x0C) ∧
    Accessing (asked (idle []) (.regWrite 0x0C 5)) 7 (.regWrite 0x0C 5) ∧
    (Accessing (asked (idle []) (.regWrite 0 3)) 7 (.regWrite 0x00 3) ∧ (idle []).status.busy = false ∧
      after State.outLen (step (asked (idle []) (.regWrite 0 3))) = some 0) ∧
    after (fun t => t.status.err) (engineStep (pending 3 (ascii "="))) = some true :=
  ⟨⟨witness_accessing _ (by decide) _, rfl, by decide⟩, witness_accessing _ (by decide) _,
   witness_accessing _ (by decide) _, ⟨witness_accessing _ (by decide) _, rfl, by decide⟩, by decide⟩

/-- InBufferReadsBackWhatWasWritten: the last index, idle and busy, written and read. -/
theorem witness_InBufferReadsBackWhatWasWritten :
    Accessing (asked (idle []) (.inWrite 63 9)) 7 (.inWrite 63 9) ∧ (idle []).status.busy = false ∧
    Accessing (asked (pending 3 []) (.inWrite 63 9)) 7 (.inWrite 63 9) ∧ (pending 3 []).status.busy = true ∧
    Accessing (asked (idle []) (.inRead 63)) 7 (.inRead 63) ∧ 63 < (idle []).inCap.toNat :=
  ⟨witness_accessing _ (by decide) _, rfl, witness_accessing _ (by decide) _, rfl, witness_accessing _ (by decide) _,
   by decide⟩

/-- OutBufferReads: the last index, idle and busy. -/
theorem witness_OutBufferReads :
    Accessing (asked (idle []) (.outRead 127)) 7 (.outRead 127) ∧ (idle []).status.busy = false ∧
    Accessing (asked (pending 3 []) (.outRead 127)) 7 (.outRead 127) ∧ (pending 3 []).status.busy = true ∧
    127 < (idle []).outCap.toNat :=
  ⟨witness_accessing _ (by decide) _, rfl, witness_accessing _ (by decide) _, rfl, by decide⟩

/-- WritesWhileBusyAreDroppedAndSetColl: the three dropped writes, an ignored one, and a step that clears COLL. -/
theorem witness_WritesWhileBusyAreDroppedAndSetColl :
    (pending 3 []).status.busy = true ∧
    (Accessing (asked (pending 3 []) (.regWrite 0 1)) 7 (.regWrite 0 1) ∧ InDomain (pending 3 []) (.regWrite 0 1)) ∧
    (Accessing (asked (pending 3 []) (.regWrite 8 1)) 7 (.regWrite 8 1) ∧ InDomain (pending 3 []) (.regWrite 8 1)) ∧
    (Accessing (asked (pending 3 []) (.inWrite 63 1)) 7 (.inWrite 63 1) ∧ InDomain (pending 3 []) (.inWrite 63 1)) ∧
    (Accessing (asked (pending 3 []) (.regWrite 4 1)) 7 (.regWrite 4 1) ∧ InDomain (pending 3 []) (.regWrite 4 1)) ∧
    (let s := asked ((pending 3 []).collide.raise .invalidLength) (.regWrite 0 3)
     s.status.coll = true ∧ after (fun t => t.status.coll) (step s) = some false) :=
  ⟨rfl, ⟨witness_accessing _ (by decide) _, by decide, by decide⟩, ⟨witness_accessing _ (by decide) _, by decide, by decide⟩,
   ⟨witness_accessing _ (by decide) _, by show 63 < 64; decide⟩,
   ⟨witness_accessing _ (by decide) _, by decide, by decide⟩, by decide⟩

/-- The invariant of a pending block with `a` asked of it. -/
theorem pending_inv (a : HostAccess) : Inv (asked (pending 3 (ascii "TQ")) a) :=
  ⟨by show configOk 64 128 = true; decide, by show Status.legal Status.accepted = true; decide,
   by show Memory.wf (Memory.ofBytes (ascii "TQ")); decide,
   by show ∀ c ∈ Memory.ofBytes (ascii "TQ"), c.1 < 64; decide, List.Pairwise.nil, fun _ h => absurd h List.not_mem_nil,
   Nat.zero_le _, fun _ => rfl, fun h => absurd h (by show ¬ true = false; decide),
   by show 0 < 1; decide, by show 0 < 1; decide⟩

/-- ReadsWhileBusy: STATUS, OUT_LEN, the last IN index and the last OUT index. -/
theorem witness_ReadsWhileBusy :
    (∀ a, Inv (asked (pending 3 (ascii "TQ")) a) ∧ (asked (pending 3 (ascii "TQ")) a).status.busy = true ∧
      Accessing (asked (pending 3 (ascii "TQ")) a) 7 a) ∧
    after State.lastRead (step (asked (pending 3 (ascii "TQ")) (.regRead 4))) = some (some (7, .word 1)) ∧
    after State.lastRead (step (asked (pending 3 (ascii "TQ")) (.regRead 0x0C))) = some (some (7, .word 0)) ∧
    after State.lastRead (step (asked (pending 3 (ascii "TQ")) (.inRead 1))) = some (some (7, .byte 0x51)) ∧
    (∃ t, step (asked (pending 3 (ascii "TQ")) (.outRead 127)) = .next t) :=
  ⟨fun a => ⟨pending_inv a, rfl, witness_accessing _ (by decide) a⟩, by decide, by decide, by decide, ⟨_, rfl⟩⟩

/-- ReadsHaveNoSideEffect: a read of each space that answers a next state, one of them a draw. -/
theorem witness_ReadsHaveNoSideEffect :
    Accessing (asked (pending 3 []) (.outRead 0)) 7 (.outRead 0) ∧
    after State.nextDraw (step (asked (pending 3 []) (.outRead 0))) = some 2 ∧
    after State.nextDraw (step (asked (idle []) (.outRead 0))) = some 1 ∧
    after State.nextDraw (step (asked (idle []) (.inRead 0))) = some 1 :=
  ⟨witness_accessing _ (by decide) _, by decide, by decide, by decide⟩

/-- EveryHostHasTheSameEffect: an access that answers a next state and one that returns a value. -/
theorem witness_EveryHostHasTheSameEffect :
    after State.lastRead (hostAccess 3 (.regRead 8) (idle [])) = some (some (3, .word 0)) ∧
    after State.inLen (hostAccess 3 (.regWrite 8 5) (idle [])) = some 5 := by decide

/-- ResetSetsRegistersAndDrawsBuffers and ResetAbandonsPendingCommand. -/
theorem witness_Reset :
    let s := { pending 3 (ascii "TQ") with agenda := [.reset, .engine, .engine] }
    s.configOk = true ∧ s.status.busy = true ∧ s.agenda = .reset :: List.replicate 2 .engine := by decide

/-- InvariantHoldsAfterReset: the smallest configuration. -/
theorem witness_InvariantHoldsAfterReset : configOk 1 6 = true := by decide

/-- StepKeepsInvariant: a state with the invariant and a step of it. -/
theorem witness_StepKeepsInvariant :
    Inv (asked (pending 3 (ascii "TQ")) (.regRead 0)) ∧ ∃ t, step (asked (pending 3 (ascii "TQ")) (.regRead 0)) = .next t :=
  ⟨pending_inv _, ⟨_, rfl⟩⟩

/-- ErrorCompletionLeavesOnlyItsCode: an engine step that ends in an error. -/
theorem witness_ErrorCompletionLeavesOnlyItsCode :
    after (fun t => t.status.err) (engineStep (pending 3 (ascii "A==="))) = some true := by decide

/-- InputBeyondCapacityIsLengthRange: one beyond, and exactly at, IN_CAP. -/
theorem witness_InputBeyondCapacityIsLengthRange :
    (let s := { idle [] with inLen := 65 }
     s.inCap.toNat < s.inLen.toNat) ∧
    (let s := { idle [] with inLen := 64 }
     s.inLen.toNat ≤ s.inCap.toNat ∧ ∃ t, exec (.enchex true) s = .next t) :=
  ⟨by decide, by decide, _, rfl⟩

/-- OnlyDecodersCanFail: a command that cannot, and one that does. -/
theorem witness_OnlyDecodersCanFail :
    (idle (ascii "$")).inLen.toNat ≤ (idle (ascii "$")).inCap.toNat ∧
    after (fun t => t.status.errCode) (exec .isb64 (idle (ascii "$"))) = some .success ∧
    after (fun t => t.status.errCode) (exec .dec64 (idle (ascii "$"))) = some .invalidLength := by decide

/-- ErrorsAreReportedByPriority: one engine step for each clause. -/
theorem witness_ErrorsAreReportedByPriority :
    (legalWord (pending 7 []).cmd = false ∧ after (fun t => t.status.errCode) (engineStep (pending 7 [])) = some .illegalCommand) ∧
    (let s := { pending 3 [] with inLen := 65 }
     legalWord s.cmd = true ∧ s.inCap.toNat < s.inLen.toNat ∧
       after (fun t => t.status.errCode) (engineStep s) = some .lengthRange) ∧
    (decode (pending 3 (ascii "$")).cmd = .ok .dec64 ∧ (pending 3 (ascii "$")).input = ascii "$" ∧
      (stripLb (pending 3 (ascii "$")).input).length % 4 = 1) ∧
    ((pending 3 (ascii "TWFu$$")).input = ascii "TWFu$$" ∧
      (stripLb (pending 3 (ascii "TWFu$$")).input).length % 4 ≠ 1 ∧
      ∃ c ∈ stripLb (pending 3 (ascii "TWFu$$")).input, c ≠ padByte ∧ b64Val c = none) ∧
    after (fun t => t.status.errCode) (engineStep (pending 3 (ascii "=="))) = some .malformedPadding ∧
    (decode (pending 6 (ascii "1")).cmd = .ok .dechex ∧ (pending 6 (ascii "1")).input.length % 2 = 1) ∧
    ((pending 6 (ascii "zz")).input.length % 2 = 0 ∧ ∃ c ∈ (pending 6 (ascii "zz")).input, hexVal c = none) ∧
    after (fun t => t.status.errCode) (engineStep (pending 4 (ascii "$"))) = some .success := by
  decide

/-- ResultDependsOnlyOnWordAndInput: two blocks that differ in STATUS and beyond IN_LEN. -/
theorem witness_ResultDependsOnlyOnWordAndInput :
    let s := pending 3 (ascii "TQ")
    let s' := { s.collide with inBuf := Memory.ofBytes (ascii "TQxx") }
    s.configOk = true ∧ s'.configOk = true ∧ s'.cmd = s.cmd ∧ s'.inLen = s.inLen ∧ s'.inCap = s.inCap ∧
    (∀ i < s.inLen.toNat, s'.inByte i = s.inByte i) ∧ (∃ t, engineStep s = .next t) ∧ (∃ t, engineStep s' = .next t) :=
  ⟨by decide, by decide, rfl, rfl, rfl, by decide, ⟨_, rfl⟩, ⟨_, rfl⟩⟩

/-- PendingCommandIsUnaffectedByHosts: a host that breaks the rules while the command is pending. -/
theorem witness_PendingCommandIsUnaffectedByHosts :
    let es : List Event := [.host 0 (.inWrite 0 0), .host 1 (.regWrite 8 0)]
    let s := { pending 3 (ascii "TQ") with agenda := es ++ [.engine] }
    s.configOk = true ∧ s.status.busy = true ∧ s.agenda = es ++ [.engine] ∧
    (∀ e ∈ es, ∃ id a, e = .host id a) ∧ ∃ t, core.run es.length s = .next t := by
  refine ⟨by decide, rfl, rfl, ?_, _, rfl⟩
  intro e he
  rcases List.mem_cons.mp he with rfl | he
  · exact ⟨_, _, rfl⟩
  · rcases List.mem_cons.mp he with rfl | he
    · exact ⟨_, _, rfl⟩
    · cases he

/-- ResultStaysVisibleUntilNextCommand: an idle block with a quiet agenda. -/
theorem witness_ResultStaysVisibleUntilNextCommand :
    let es : List Event := [.host 0 (.inWrite 0 0), .engine]
    let s := { (pending 3 (ascii "TQ")).complete [0x4D] false with agenda := es ++ [.reset] }
    s.status.busy = false ∧ s.agenda = es ++ [.reset] ∧ (∀ e ∈ es, Quiet e) ∧ ∃ t, core.run es.length s = .next t := by
  refine ⟨rfl, rfl, ?_, _, rfl⟩
  intro e he
  rcases List.mem_cons.mp he with rfl | he
  · exact ⟨by decide, fun id v h => by cases h⟩
  · rcases List.mem_cons.mp he with rfl | he
    · exact ⟨by decide, fun id v h => by cases h⟩
    · cases he

/-- WrittenTextBecomesTheInput and HostRunsACommandOnItsText: an idle block with a script on its agenda, and a result of
each kind. -/
theorem witness_HostScripts :
    (let s := { State.reset with agenda := scriptEvents 0 [.ws (ascii "TQ")] ++ [Event.engine] }
     s.configOk = true ∧ s.status.busy = false ∧ (ascii "TQ").length ≤ s.inCap.toNat ∧
     s.agenda = scriptEvents 0 [.ws (ascii "TQ")] ++ [Event.engine]) ∧
    (let s := { State.reset with agenda := scriptEvents 0 [.ws (ascii "TQ"), .wr .cmd (encode .dec64)] ++ [Event.engine] }
     s.configOk = true ∧ s.status.busy = false ∧
     s.agenda = scriptEvents 0 [.ws (ascii "TQ"), .wr .cmd (encode .dec64)] ++ Event.engine :: []) ∧
    (∃ o r, commandResult .dec64 (ascii "TQ") = .ok (o, r)) ∧
    (∃ c, commandResult .dec64 (ascii "T") = .error c) :=
  ⟨by decide, by decide, ⟨_, _, rfl⟩, ⟨_, rfl⟩⟩

/-- `Ready` (every completion statement): IN_LEN = 0, and IN_LEN = IN_CAP. -/
theorem witness_Ready : Ready (idle []) ∧ Ready { idle [] with inLen := 64 } := by
  refine ⟨⟨?_, ?_⟩, ?_, ?_⟩ <;> decide

/-- Enc64TextSpellsTheBitString: a character of the groups, and one of the padding. -/
theorem witness_Enc64TextSpellsTheBitString :
    1 < ceilDiv (4 * (bytes [0x4D]).length) 3 ∧
    ceilDiv (4 * (bytes [0x4D]).length) 3 ≤ 2 ∧ (enc64Text false false (bytes [0x4D]))[2]? = some 0x3D := by decide

/-- ChunkedTextIsLinesOfSeventySix: a text that is not empty. -/
theorem witness_ChunkedTextIsLinesOfSeventySix : ascii "TQ==" ≠ [] := by decide

/-- Dec64CompletesWithTheBitString: without padding, and with each count of padding. -/
theorem witness_Dec64CompletesWithTheBitString :
    (Ready (idle (ascii "TQ")) ∧ stripLb (idle (ascii "TQ")).input = ascii "TQ" ++ pads 0 ∧ Decodable (ascii "TQ") 0) ∧
    (stripLb (idle (ascii "TWE=")).input = ascii "TWE" ++ pads 1 ∧ Decodable (ascii "TWE") 1) ∧
    (stripLb (idle (ascii "TQ==")).input = ascii "TQ" ++ pads 2 ∧ Decodable (ascii "TQ") 2) := by
  refine ⟨⟨⟨by decide, by decide⟩, by decide, ?_, .inl (by decide)⟩, ⟨by decide, ?_, .inr (by decide)⟩,
    ⟨by decide, ?_, .inr (by decide)⟩⟩ <;> · show ∀ c ∈ ascii _, _; decide

/-- Dec64ErrorsInOrder: a text for each clause, and for both ways of malformed padding. -/
theorem witness_Dec64ErrorsInOrder :
    (stripLb (idle (ascii "A")).input).length % 4 = 1 ∧
    ((stripLb (idle (ascii "A$")).input).length % 4 ≠ 1 ∧
      ∃ c ∈ stripLb (idle (ascii "A$")).input, c ≠ padByte ∧ b64Val c = none) ∧
    ((∀ c ∈ stripLb (idle (ascii "TW=E")).input, c = padByte ∨ (b64Val c).isSome = true) ∧
      stripLb (idle (ascii "TW=E")).input = ascii "TW" ++ padByte :: ascii "E" ∧ (0x45 : Byte) ∈ ascii "E" ∧
      (0x45 : Byte) ≠ padByte) ∧
    ((∀ c ∈ stripLb (idle (ascii "A===")).input, c = padByte ∨ (b64Val c).isSome = true) ∧
      stripLb (idle (ascii "A===")).input = ascii "A" ++ pads 3 ∧ (∀ c ∈ ascii "A", (b64Val c).isSome = true)) ∧
    (stripLb (idle (ascii "TQ=")).input = ascii "TQ" ++ pads 1 ∧ (stripLb (idle (ascii "TQ=")).input).length % 4 ≠ 0) := by
  decide

/-- DroppedBitsNeverMatter: "TR==" beside "TQ==", and "TWF=" beside "TWE=". -/
theorem witness_DroppedBitsNeverMatter :
    (b64Val 0x51 = some 16 ∧ b64Val 0x52 = some 17 ∧ Decodable (ascii "T" ++ [0x51]) 2 ∧
      ((ascii "T").length + 1) % 4 = 2 ∧ (16 : BitVec 6).extractLsb' 4 2 = (17 : BitVec 6).extractLsb' 4 2) ∧
    (b64Val 0x45 = some 4 ∧ b64Val 0x46 = some 5 ∧ Decodable (ascii "TW" ++ [0x45]) 1 ∧
      ((ascii "TW").length + 1) % 4 = 3 ∧ (4 : BitVec 6).extractLsb' 2 4 = (5 : BitVec 6).extractLsb' 2 4) := by
  refine ⟨⟨by decide, by decide, ⟨?_, .inr (by decide)⟩, by decide, by decide⟩,
    ⟨by decide, by decide, ⟨?_, .inr (by decide)⟩, by decide, by decide⟩⟩
  · show ∀ c ∈ ascii "T" ++ [0x51], _; decide
  · show ∀ c ∈ ascii "TW" ++ [0x45], _; decide

/-- DecoderOutputLength: a text for each remainder of the data. -/
theorem witness_DecoderOutputLength :
    dec64Result (ascii "TWFu") = .ok (bytes [0x4D, 0x61, 0x6E]) ∧ dec64Result (ascii "TWE=") = .ok (bytes [0x4D, 0x61]) ∧
    dec64Result (ascii "TQ==") = .ok (bytes [0x4D]) := by decide

/-- Base64RoundTrip: a block that encodes and one that holds its output. -/
theorem witness_Base64RoundTrip :
    Ready (idle (bytes [0x4D])) ∧ Ready (idle (ascii "TQ==")) ∧
    after State.output (exec (.enc64 false false) (idle (bytes [0x4D]))) = some (idle (ascii "TQ==")).input ∧
    dec64Result (enc64Text false false (bytes [0x4D])) = .ok (bytes [0x4D]) := by
  refine ⟨⟨?_, ?_⟩, ⟨?_, ?_⟩, ?_, ?_⟩ <;> decide

/-- SnifferHasNoFalseNegatives: a text that decodes. -/
theorem witness_SnifferHasNoFalseNegatives :
    Ready (idle (ascii "TQ")) ∧ after (fun t => t.status.err) (exec .dec64 (idle (ascii "TQ"))) = some false ∧
    after (fun t => t.status.result) (exec .isb64 (idle (ascii "TQ"))) = some true := by
  refine ⟨⟨?_, ?_⟩, ?_, ?_⟩ <;> decide

/-- DechexCompletesWithOneBytePerPair and DechexErrorsInOrder: a text for each clause. -/
theorem witness_Dechex :
    (Ready (idle (ascii "4d")) ∧ (idle (ascii "4d")).inLen.toNat % 2 = 0 ∧
      ∀ i < (idle (ascii "4d")).inLen.toNat, (hexVal ((idle (ascii "4d")).inByte i)).isSome = true) ∧
    (idle (ascii "1")).inLen.toNat % 2 = 1 ∧
    ((idle (ascii "0g")).inLen.toNat % 2 = 0 ∧
      ∃ i < (idle (ascii "0g")).inLen.toNat, hexVal ((idle (ascii "0g")).inByte i) = none) := by
  refine ⟨⟨⟨?_, ?_⟩, ?_, ?_⟩, ?_, ?_⟩ <;> decide

/-- HexRoundTrip: a block that encodes, one that holds its output, and digits of both cases. -/
theorem witness_HexRoundTrip :
    Ready (idle (bytes [0xFE])) ∧ Ready (idle (ascii "fe")) ∧
    after State.output (exec (.enchex true) (idle (bytes [0xFE]))) = some (idle (ascii "fe")).input ∧
    (ascii "Fe").length % 2 = 0 ∧ (∀ c ∈ ascii "Fe", (hexVal c).isSome = true) := by
  refine ⟨⟨?_, ?_⟩, ⟨?_, ?_⟩, ?_, ?_, ?_⟩ <;> decide

end Sys2Proof.Tests
end

section
/-! PROOFS of the family 00_scope: the length of every output, what a command's result is, what one step is, the
invariant, and the end of a pending command. -/

/-! ### How long an output can be (00_scope R7) -/

namespace Sys2Proof

theorem ceilDiv_mono {a b : Nat} (h : a ≤ b) (d : Nat) : ceilDiv a d ≤ ceilDiv b d :=
  Nat.div_le_div_right (by omega)

end Sys2Proof

namespace Sys2Proof.Machine

/-- A longer input never has a smaller bound (00_scope R7). -/
theorem outMax_mono {m n : Nat} (h : m ≤ n) : outMax m ≤ outMax n := by
  have hm : 4 * ceilDiv m 3 ≤ 4 * ceilDiv n 3 := Nat.mul_le_mul_left 4 (ceilDiv_mono h 3)
  have hl := ceilDiv_mono hm 76
  simp only [outMax]
  omega

/-- The bound covers every length up to `n`, in particular what a decoder can produce. -/
theorem le_outMax (n : Nat) : n ≤ outMax n := by
  simp only [outMax]
  omega

@[simp] theorem slice_length (t : List Byte) (i j : Nat) : (slice t i j).length = min j t.length - i := by
  simp [slice]

/-- Four values for three bytes, rounded up (40_base64 R100). -/
theorem b64Groups_length (input : List Byte) : (b64Groups input).length = ceilDiv (4 * input.length) 3 := by
  fun_induction b64Groups input with
  | case1 a b c rest ih =>
    simp only [List.length_append, ih, sextets, List.length_cons, List.length_nil, ceilDiv]
    omega
  | case2 a b => simp [sextets, ceilDiv]
  | case3 a => simp [sextets, ceilDiv]
  | case4 => rfl

/-- As many padding characters as the final partial quantum lacks bytes (40_base64 R101). -/
theorem padFmt_length {r : Nat} (h : r < 3) : (padFmt r).length = if r = 0 then 0 else 3 - r := by
  interval_cases r <;> rfl

/-- Without padding a text has one character for each value (40_base64 R102). -/
theorem enc64Line_length_unpadded (input : List Byte) :
    (enc64Line true input).length = ceilDiv (4 * input.length) 3 := by
  simp [enc64Line, b64Groups_length]

/-- With padding a text has four characters for each quantum, the last one included (40_base64 R101, R102). -/
theorem enc64Line_length_padded (input : List Byte) :
    (enc64Line false input).length = 4 * ceilDiv input.length 3 := by
  have hpad := padFmt_length (Nat.mod_lt input.length (by decide : 0 < 3))
  simp only [enc64Line, Bool.false_eq_true, if_false, List.length_append, List.length_map, b64Groups_length, hpad,
    ceilDiv]
  split_ifs <;> omega

theorem enc64Line_length_le (u : Bool) (input : List Byte) :
    (enc64Line u input).length ≤ 4 * ceilDiv input.length 3 := by
  cases u with
  | true =>
    rw [enc64Line_length_unpadded]
    simp only [ceilDiv]
    omega
  | false => exact (enc64Line_length_padded input).le

/-- Line `k` of chunked text, with its CR LF (40_base64 R103). -/
def chunkLine (t : List Byte) (k : Nat) : List Byte :=
  slice t (lineLen * k) (min (lineLen * k + lineLen) t.length) ++ lineSep

/-- Chunked text is its lines one after another; empty text has none. -/
theorem chunk_eq_lines (t : List Byte) : chunk t = (List.range (ceilDiv t.length lineLen)).flatMap (chunkLine t) := by
  unfold chunk
  split_ifs with h
  · simp [h, ceilDiv, lineLen]
  · rfl

/-- The first `m` lines hold the first `76 * m` characters of the text and two separators each. -/
theorem chunkLines_length (t : List Byte) (m : Nat) :
    ((List.range m).flatMap (chunkLine t)).length = min (76 * m) t.length + 2 * m := by
  induction m with
  | zero => simp
  | succ m ih =>
    simp only [List.range_succ, List.flatMap_append, List.length_append, ih, List.flatMap_singleton, chunkLine,
      slice_length, lineLen, lineSep, List.length_cons, List.length_nil]
    omega

/-- Chunking adds one separator per line (40_base64 R103). -/
theorem chunk_length (t : List Byte) : (chunk t).length = t.length + 2 * ceilDiv t.length 76 := by
  rw [chunk_eq_lines, chunkLines_length, lineLen, ceilDiv]
  omega

theorem enc64Text_length_le (c u : Bool) (input : List Byte) :
    (enc64Text c u input).length ≤ outMax input.length := by
  have hline := enc64Line_length_le u input
  have hsep := ceilDiv_mono hline 76
  cases c with
  | true =>
    simp only [enc64Text, if_true, chunk_length, outMax]
    omega
  | false =>
    simp only [enc64Text, Bool.false_eq_true, if_false, outMax]
    omega

/-- Two digits for each byte (41_hex R141). -/
theorem encHexText_length (l : Bool) (input : List Byte) : (encHexText l input).length = 2 * input.length := by
  induction input with
  | nil => rfl
  | cons b input ih =>
    simp only [encHexText, List.flatMap_cons, List.length_append] at ih ⊢
    simp only [ih, hexPair, List.length_cons, List.length_nil]
    omega

theorem encHexText_length_le (l : Bool) (input : List Byte) : (encHexText l input).length ≤ outMax input.length := by
  rw [encHexText_length]
  exact Nat.le_max_left _ _

/-- Three bytes for four values, rounded down (40_base64 R108). -/
theorem b64Bytes_length (vs : List (BitVec 6)) : (b64Bytes vs).length = 3 * vs.length / 4 := by
  fun_induction b64Bytes vs with
  | case1 a b c d rest v ih =>
    simp only [List.length_cons, ih]
    omega
  | case2 a b c v => simp
  | case3 a b v => simp
  | case4 a => simp
  | case5 => rfl

/-- One byte for each pair of nibbles (41_hex R142). -/
theorem hexBytes_length (vs : List (BitVec 4)) : (hexBytes vs).length = vs.length / 2 := by
  fun_induction hexBytes vs with
  | case1 a b rest ih =>
    simp only [List.length_cons, ih]
    omega
  | case2 a => simp
  | case3 => rfl

/-- What DEC64 gives when every check passes: the bytes of the data characters (40_base64 R108). -/
theorem dec64Stripped_ok {t o : List Byte} (h : dec64Stripped t = .ok o) :
    o = b64Bytes ((slice t 0 (t.length - padRun t)).filterMap b64Val) := by
  simp only [dec64Stripped] at h
  split_ifs at h
  exact (Except.ok.inj h).symm

/-- What DECHEX gives when both checks pass: the bytes of the digits (41_hex R142). -/
theorem decHexResult_ok {input o : List Byte} (h : decHexResult input = .ok o) :
    o = hexBytes (input.filterMap hexVal) := by
  simp only [decHexResult] at h
  split_ifs at h
  exact (Except.ok.inj h).symm

theorem dec64Result_length_le {input o : List Byte} (h : dec64Result input = .ok o) : o.length ≤ input.length := by
  have hdata := List.length_filterMap_le b64Val
    (slice (stripLb input) 0 ((stripLb input).length - padRun (stripLb input)))
  have hstrip : (stripLb input).length ≤ input.length := List.length_filter_le _ _
  rw [dec64Stripped_ok h, b64Bytes_length]
  rw [slice_length] at hdata
  omega

theorem decHexResult_length_le {input o : List Byte} (h : decHexResult input = .ok o) : o.length ≤ input.length := by
  have hdigits := List.length_filterMap_le hexVal input
  rw [decHexResult_ok h, hexBytes_length]
  omega

end Sys2Proof.Machine

namespace Sys2Proof.Proofs

open Sys2Proof.Machine Sys2Proof.Claims

/-- Settles O10: each text's length is known, and the decoders only shorten. -/
theorem outputNeverExceedsOutMax : Obligations.OutputNeverExceedsOutMax :=
  ⟨enc64Text_length_le, encHexText_length_le, fun _ _ => dec64Result_length_le, fun _ _ => decHexResult_length_le,
    fun _ _ => outMax_mono⟩

end Sys2Proof.Proofs
end

section
/-! PROOFS of the family 00_scope, continued: what a command's result is, and what one step is. -/

namespace Sys2Proof.Machine

open Sys2Proof.Claims

/-! ### A command and its result -/

/-- The completion a command's result asks for: success with its output and result bit (30_encoding R78), or the error
(60_exceptions R183). -/
def State.completeWith (s : State) : Except ErrCode (List Byte × Bool) → State
  | .ok (o, r) => s.complete o r
  | .error code => s.raise code

@[simp] theorem State.completeWith_ok (s : State) (o : List Byte) (r : Bool) :
    s.completeWith (.ok (o, r)) = s.complete o r := rfl

@[simp] theorem State.completeWith_error (s : State) (code : ErrCode) :
    s.completeWith (.error code) = s.raise code := rfl

/-- A decoding command's end is the completion of its bytes with RESULT 0. -/
theorem State.finish_eq_completeWith (s : State) (e : Except ErrCode (List Byte)) :
    s.finish e = s.completeWith (e.map (fun o => (o, false))) := by
  cases e <;> rfl

/-- Every command completes with its result on its input, after the common range check (30_encoding R77). -/
theorem exec_eq_withInput (i : Instr) (s : State) :
    exec i s = withInput s (fun input => s.completeWith (commandResult i input)) := by
  cases i with
  | enc64 c u => rfl
  | enc64us => rfl
  | dec64 => simp only [exec, execDec64, commandResult, State.finish_eq_completeWith]
  | isb64 => rfl
  | enchex l => rfl
  | dechex => simp only [exec, execDechex, commandResult, State.finish_eq_completeWith]

theorem exec_inRange {s : State} (h : s.inLen.toNat ≤ s.inCap.toNat) (i : Instr) :
    exec i s = .next (s.completeWith (commandResult i s.input)) := by
  rw [exec_eq_withInput, withInput_inRange h]

theorem exec_outOfRange {s : State} (h : s.inCap.toNat < s.inLen.toNat) (i : Instr) :
    exec i s = .next (s.raise .lengthRange) := by
  rw [exec_eq_withInput, withInput_outOfRange h]

/-- An error completion is no success completion: ERR tells them apart. -/
theorem State.raise_ne_complete (s : State) (c : ErrCode) (o : List Byte) (r : Bool) : s.raise c ≠ s.complete o r :=
  fun h => by simpa using congrArg (fun t : State => t.status.err) h

/-- `exec_cases`, with where the output of a success comes from. -/
theorem exec_cases_result (i : Instr) (s : State) :
    (∃ c, c ≠ .success ∧ exec i s = .next (s.raise c)) ∨
    (∃ o r, s.inLen.toNat ≤ s.inCap.toNat ∧ commandResult i s.input = .ok (o, r) ∧
      exec i s = .next (s.complete o r)) := by
  rcases exec_cases i s with herr | ⟨o, r, hok⟩
  · exact .inl herr
  · by_cases hr : s.inLen.toNat ≤ s.inCap.toNat
    · have hexec := exec_inRange hr i
      cases hres : commandResult i s.input with
      | ok p => exact .inr ⟨p.1, p.2, hr, rfl, by rw [hexec, hres]; rfl⟩
      | error c =>
        rw [hexec, hres, State.completeWith_error] at hok
        exact absurd (Host.Outcome.next.inj hok) (State.raise_ne_complete s c o r)
    · rw [exec_outOfRange (Nat.lt_of_not_le hr)] at hok
      exact absurd (Host.Outcome.next.inj hok) (State.raise_ne_complete s _ o r)

/-- No command gives more than OUTMAX bytes (00_scope R7). -/
theorem commandResult_length_le {i : Instr} {input o : List Byte} {r : Bool} (h : commandResult i input = .ok (o, r)) :
    o.length ≤ outMax input.length := by
  have decoded {e : Except ErrCode (List Byte)} (he : e.map (fun o => (o, false)) = .ok (o, r))
      (hlen : ∀ {o}, e = .ok o → o.length ≤ input.length) : o.length ≤ outMax input.length := by
    cases e with
    | error c => cases he
    | ok o' =>
      cases he
      exact (hlen rfl).trans (le_outMax _)
  cases i with
  | enc64 c u => cases h; exact enc64Text_length_le c u input
  | enc64us => cases h; exact enc64Text_length_le false true input
  | dec64 => exact decoded h dec64Result_length_le
  | isb64 => cases h; exact Nat.zero_le _
  | enchex l => cases h; exact encHexText_length_le l input
  | dechex => exact decoded h decHexResult_length_le

/-! ### The configuration -/

theorem configOk_iff (s : State) :
    s.configOk = true ↔ 1 ≤ s.inCap.toNat ∧ outMax s.inCap.toNat ≤ s.outCap.toNat := by
  simp [State.configOk, configOk]

/-- In a well-formed configuration OUT_BUF has room for every output (00_scope R7). -/
theorem commandResult_fits {s : State} {i : Instr} {o : List Byte} {r : Bool} (hc : s.configOk = true)
    (hr : s.inLen.toNat ≤ s.inCap.toNat) (h : commandResult i s.input = .ok (o, r)) : o.length ≤ s.outCap.toNat :=
  calc o.length ≤ outMax s.input.length := commandResult_length_le h
    _ = outMax s.inLen.toNat := by rw [State.input_length]
    _ ≤ outMax s.inCap.toNat := outMax_mono hr
    _ ≤ s.outCap.toNat := ((configOk_iff s).mp hc).2

/-- `engineStep_cases`, with the room for the output of a success. -/
theorem engineStep_cases_fits {s : State} (hc : s.configOk = true) :
    (∃ c, c ≠ .success ∧ engineStep s = .next (s.raise c)) ∨
    (∃ o r, o.length ≤ s.outCap.toNat ∧ engineStep s = .next (s.complete o r)) := by
  unfold engineStep
  split
  · next i _ =>
    rcases exec_cases_result i s with herr | ⟨o, r, hr, hres, hok⟩
    · exact .inl herr
    · exact .inr ⟨o, r, commandResult_fits hc hr hres, hok⟩
  · exact .inl ⟨.illegalCommand, by decide, rfl⟩

/-! ### What a step is -/

theorem step_illFormed {s : State} (h : s.configOk = false) : step s = .refused .illFormedConfig := by
  simp [step, blockStep, h]

theorem step_of_nil {s : State} (hc : s.configOk = true) (h : s.agenda = []) : step s = engineSlot s := by
  simp [step, blockStep, hc, h]

theorem step_of_cons {s : State} {e : Event} {rest : List Event} (hc : s.configOk = true) (h : s.agenda = e :: rest) :
    step s = eventStep e s.slotTaken := by
  rw [← State.slotTaken_of_cons h]
  simp [step, blockStep, hc, h]

theorem engineSlot_idle {s : State} (h : s.status.busy = false) : engineSlot s = .next s := by
  simp [engineSlot, h]

theorem engineSlot_busy {s : State} (h : s.status.busy = true) : engineSlot s = engineStep s := by
  simp [engineSlot, h]

/-- An engine slot always has a next state, and the block is idle in it (30_encoding R77, 00_scope R11). -/
theorem engineSlot_ends (s : State) : ∃ t, engineSlot s = .next t ∧ t.status.busy = false := by
  cases hb : s.status.busy with
  | false => exact ⟨s, engineSlot_idle hb, hb⟩
  | true =>
    rw [engineSlot_busy hb]
    rcases engineStep_cases s with ⟨c, -, h⟩ | ⟨o, r, h⟩
    · exact ⟨_, h, rfl⟩
    · exact ⟨_, h, rfl⟩

/-- In a well-formed configuration no step is refused. -/
theorem step_ne_refused {s : State} (hc : s.configOk = true) (r : Refusal) : step s ≠ .refused r := by
  have slot (u : State) : engineSlot u ≠ .refused r := by
    obtain ⟨t, ht, -⟩ := engineSlot_ends u
    simp [ht]
  cases ha : s.agenda with
  | nil =>
    rw [step_of_nil hc ha]
    exact slot s
  | cons e rest =>
    rw [step_of_cons hc ha]
    cases e with
    | engine => exact slot _
    | reset => simp [eventStep]
    | host id a =>
      cases hf : accessFault a s.slotTaken with
      | none => simp [eventStep, hostAccess_admitted hf]
      | some f => simp [eventStep, hostAccess_notAdmitted hf]

/-- The step is refused exactly for an ill-formed configuration, by that name (00_scope R7). -/
theorem step_eq_refused_iff (s : State) (r : Refusal) :
    step s = .refused r ↔ r = .illFormedConfig ∧ s.configOk = false := by
  cases hc : s.configOk with
  | true => simp [step_ne_refused hc r]
  | false => simp [step_illFormed hc, eq_comm]

end Sys2Proof.Machine

namespace Sys2Proof.Proofs

open Sys2Proof.Machine Sys2Proof.Claims

/-- Settles O9: `step_eq_refused_iff`, with OUTMAX written out. -/
theorem refusedExactlyWhenConfigIllFormed : Obligations.RefusedExactlyWhenConfigIllFormed := by
  intro s r
  rw [step_eq_refused_iff, ← Bool.not_eq_true, configOk_iff]
  rfl

/-- Settles O11: an engine slot leaves an idle block alone. -/
theorem idleBlockKeepsAllState : Obligations.IdleBlockKeepsAllState := by
  intro s hc hb
  constructor
  · intro ha
    rw [step_of_nil hc ha, engineSlot_idle hb]
  · intro rest ha
    rw [step_of_cons hc ha, State.slotTaken_of_cons ha]
    exact engineSlot_idle hb

end Sys2Proof.Proofs
end

section
/-! PROOFS of the family 00_scope, continued: the invariant. -/

namespace Sys2Proof.Machine

/-! ### Legal values of STATUS (10_state R24) -/

theorem Status.legal_accepted : Status.accepted.legal = true := rfl

theorem Status.legal_reset : Status.reset.legal = true := rfl

theorem Status.legal_succeeded (t : Status) (r : Bool) : (t.succeeded r).legal = true := by
  simp [Status.legal]

theorem Status.legal_failed (t : Status) {c : ErrCode} (h : c ≠ .success) : (t.failed c).legal = true := by
  simp [Status.legal, h]

/-- COLL is no part of the condition. -/
theorem Status.legal_collided (t : Status) : t.collided.legal = t.legal := rfl

/-! ### What keeps the invariant -/

section
variable {s : State} (h : Inv s)
include h

theorem Inv.slotTaken : Inv s.slotTaken := { h with }

theorem Inv.returned (id : Nat) (v : ReadValue) : Inv (s.returned id v) := { h with }

/-- A read that draws leaves the stamps of the buffers behind the next draw. -/
theorem Inv.returned_draw (id : Nat) (v : ReadValue) : Inv { s.returned id v with nextDraw := s.nextDraw + 1 } :=
  { h with
    inFresh := Nat.lt_succ_of_lt h.inFresh
    outFresh := Nat.lt_succ_of_lt h.outFresh }

theorem Inv.collide : Inv s.collide := { h with status := (Status.legal_collided s.status).trans h.status }

theorem Inv.writeInLen (v : Word) : Inv { s with inLen := v } := { h with }

theorem Inv.writeInBuf {i : Nat} (hi : i < s.inCap.toNat) (b : Byte) :
    Inv { s with inBuf := Memory.write s.inBuf i b } :=
  { h with
    inForm := Memory.write_wf h.inForm i b
    inBound := fun _ hc => (Memory.mem_write hc).elim (fun heq => heq ▸ hi) (h.inBound _) }

/-- Acceptance empties OUT_LEN (30_encoding R76). -/
theorem Inv.accept (v : Word) : Inv (s.accept v) :=
  { h with
    status := Status.legal_accepted
    outLen := Nat.zero_le _
    busyLen := fun _ => rfl
    defined := fun hb => by simp at hb }

theorem Inv.resetBlock : Inv s.resetBlock :=
  { config := h.config
    status := Status.legal_reset
    inForm := List.Pairwise.nil
    inBound := fun _ hc => absurd hc List.not_mem_nil
    outForm := List.Pairwise.nil
    outBound := fun _ hc => absurd hc List.not_mem_nil
    outLen := Nat.zero_le _
    busyLen := fun _ => rfl
    defined := fun _ i hi => absurd hi (Nat.not_lt_zero i)
    inFresh := Nat.lt_succ_self _
    outFresh := Nat.lt_succ_self _ }

/-- An error completion defines no byte and leaves OUT_LEN 0 (60_exceptions R183). -/
theorem Inv.raise {c : ErrCode} (hc : c ≠ .success) : Inv (s.raise c) :=
  { h with
    status := Status.legal_failed _ hc
    outForm := List.Pairwise.nil
    outBound := fun _ hc => absurd hc List.not_mem_nil
    outLen := Nat.zero_le _
    busyLen := fun _ => rfl
    defined := fun _ i hi => absurd hi (Nat.not_lt_zero i)
    inFresh := Nat.lt_succ_of_lt h.inFresh
    outFresh := Nat.lt_succ_self _ }

/-- A success completion defines exactly the bytes below OUT_LEN, when they fit into OUT_BUF (30_encoding R78). -/
theorem Inv.complete {o : List Byte} (ho : o.length ≤ s.outCap.toNat) (r : Bool) : Inv (s.complete o r) :=
  have hlen : (s.complete o r).outLen.toNat = o.length :=
    (BitVec.toNat_ofNat _ _).trans (Nat.mod_eq_of_lt (ho.trans_lt s.outCap.isLt))
  { h with
    status := Status.legal_succeeded _ _
    outForm := Memory.ofBytes_wf o
    outBound := fun _ hc => (Memory.ofBytes_bound hc).trans_le ho
    outLen := hlen.trans_le ho
    busyLen := fun hb => by simp at hb
    defined := fun _ i hi => by rw [hlen] at hi; simpa using hi
    inFresh := Nat.lt_succ_of_lt h.inFresh
    outFresh := Nat.lt_succ_self _ }

theorem Inv.engineStep {t : State} (ht : engineStep s = .next t) : Inv t := by
  rcases engineStep_cases_fits h.config with ⟨c, hc, heq⟩ | ⟨o, r, ho, heq⟩
  · cases heq.symm.trans ht
    exact h.raise hc
  · cases heq.symm.trans ht
    exact h.complete ho r

theorem Inv.accessEffect (id : Nat) {a : HostAccess} (ha : accessFault a s = none) : Inv (accessEffect id a s) := by
  rcases accessEffect_cases id a s with
    heq | ⟨v, heq⟩ | ⟨v, heq⟩ | ⟨-, heq⟩ | ⟨-, v, heq⟩ | ⟨-, v, heq⟩ | ⟨-, i, b, rfl, heq⟩ <;> rw [heq]
  · exact h
  · exact h.returned id v
  · exact h.returned_draw id v
  · exact h.collide
  · exact h.accept v
  · exact h.writeInLen v
  · have hi : i < s.inCap.toNat := by
      by_contra hi
      simp [accessFault, hi] at ha
    exact h.writeInBuf hi b

theorem Inv.step {t : State} (ht : step s = .next t) : Inv t := by
  obtain ⟨-, ⟨-, -, hrun⟩ | ⟨-, -, rfl⟩ | ⟨_, -, rfl⟩ | ⟨id, a, _, -, ha, rfl⟩⟩ := step_cases ht
  · exact h.slotTaken.engineStep hrun
  · exact h.slotTaken
  · exact h.slotTaken.resetBlock
  · exact h.slotTaken.accessEffect id ha

end

end Sys2Proof.Machine

namespace Sys2Proof.Proofs

open Sys2Proof.Machine

/-- Settles O30: each thing a step can do keeps the invariant; the outputs fit by OUTMAX. -/
theorem stepKeepsInvariant : Obligations.StepKeepsInvariant :=
  fun _ _ h ht => h.step ht

end Sys2Proof.Proofs
end

section
/-! PROOFS of the family 00_scope, continued: a pending command ends. -/

namespace Sys2Proof.Machine

/-! ### What an access leaves alone -/

/-- No access changes the capacities or what is still on the agenda, and none ends a pending command (10_state R27, R28;
70_reset_and_hazards R218). -/
theorem accessEffect_frame (id : Nat) (a : HostAccess) (s : State) :
    (accessEffect id a s).inCap = s.inCap ∧ (accessEffect id a s).outCap = s.outCap ∧
    (accessEffect id a s).agenda = s.agenda ∧
    (s.status.busy = true → (accessEffect id a s).status.busy = true) := by
  rcases accessEffect_cases id a s with
    heq | ⟨v, heq⟩ | ⟨v, heq⟩ | ⟨-, heq⟩ | ⟨-, v, heq⟩ | ⟨-, v, heq⟩ | ⟨-, i, b, -, heq⟩ <;> rw [heq] <;> simp

/-- The reasons for a fault depend only on the access and the capacities (20_memory R51). -/
theorem accessFault_congr {s t : State} (hi : t.inCap = s.inCap) (ho : t.outCap = s.outCap) (a : HostAccess) :
    accessFault a t = accessFault a s := by
  cases a <;> simp only [accessFault, hi, ho]

theorem eventAdmitted_congr {s t : State} (hi : t.inCap = s.inCap) (ho : t.outCap = s.outCap) (e : Event) :
    eventAdmitted t e ↔ eventAdmitted s e := by
  cases e with
  | host id a => simp only [eventAdmitted, accessFault_congr hi ho]
  | engine => exact Iff.rfl
  | reset => exact Iff.rfl

theorem State.configOk_congr {s t : State} (hi : t.inCap = s.inCap) (ho : t.outCap = s.outCap) :
    t.configOk = s.configOk := by
  simp only [State.configOk, hi, ho]

/-! ### Runs -/

theorem core_run_succ {s t : State} (h : step s = .next t) (k : Nat) : core.run (k + 1) s = core.run k t := by
  have hstep : core.step s = .next t := h
  simp only [Host.Core.run, hstep]

theorem core_run_one {s t : State} (h : step s = .next t) : core.run 1 s = .next t := core_run_succ h 0

/-- An admitted access at the head of the agenda happens, and what is left of an admitted agenda is admitted. -/
theorem step_of_admitted_access {s : State} {id : Nat} {a : HostAccess} {rest : List Event} (hc : s.configOk = true)
    (hadm : agendaAdmitted s) (ha : s.agenda = .host id a :: rest) :
    step s = .next (accessEffect id a s.slotTaken) ∧ agendaAdmitted (accessEffect id a s.slotTaken) := by
  have hfault : accessFault a s.slotTaken = none := hadm (.host id a) (ha ▸ List.mem_cons_self)
  obtain ⟨hin, hout, hagenda, -⟩ := accessEffect_frame id a s.slotTaken
  refine ⟨(step_of_cons hc ha).trans (hostAccess_admitted hfault id), fun e he => ?_⟩
  rw [hagenda, State.slotTaken_agenda] at he
  exact (eventAdmitted_congr hin hout e).mpr (hadm e (List.mem_of_mem_tail he))

/-- A pending command is over after at most one step more than the agenda holds: an access keeps it pending and uses up
its entry, and an engine slot or a reset ends it. -/
theorem pending_ends (agenda : List Event) {s : State} (ha : s.agenda = agenda) (hc : s.configOk = true)
    (hadm : agendaAdmitted s) (hb : s.status.busy = true) :
    ∃ k t, k ≤ agenda.length + 1 ∧ core.run k s = .next t ∧ t.status.busy = false := by
  induction agenda generalizing s with
  | nil =>
    obtain ⟨t, ht, hidle⟩ := engineSlot_ends s
    exact ⟨1, t, Nat.le_refl 1, core_run_one ((step_of_nil hc ha).trans ht), hidle⟩
  | cons e rest ih =>
    cases e with
    | engine =>
      obtain ⟨t, ht, hidle⟩ := engineSlot_ends s.slotTaken
      exact ⟨1, t, Nat.le_add_left 1 _, core_run_one ((step_of_cons hc ha).trans ht), hidle⟩
    | reset => exact ⟨1, _, Nat.le_add_left 1 _, core_run_one (step_of_cons hc ha), rfl⟩
    | host id a =>
      obtain ⟨hin, hout, hagenda, hbusy⟩ := accessEffect_frame id a s.slotTaken
      obtain ⟨hstep, hadm'⟩ := step_of_admitted_access hc hadm ha
      obtain ⟨k, t, hk, hrun, hidle⟩ :=
        ih (by simp [hagenda, ha]) ((State.configOk_congr hin hout).trans hc) hadm' (hbusy hb)
      exact ⟨k + 1, t, Nat.succ_le_succ hk, (core_run_succ hstep k).trans hrun, hidle⟩

end Sys2Proof.Machine

namespace Sys2Proof.Proofs

open Sys2Proof.Machine

/-- Settles O12: `pending_ends`, an induction on the agenda. -/
theorem pendingCommandEndsWithinAgenda : Obligations.PendingCommandEndsWithinAgenda :=
  fun _ hc hadm hb => pending_ends _ rfl hc hadm hb

end Sys2Proof.Proofs
end

section
/-! PROOFS of the family 10_state: what a host's access does as the next step, what a pending command's completion depends
on, and why no host can affect it. -/

namespace Sys2Proof.Machine

open Sys2Proof.Claims

/-! ### An access as the next step (20_memory R51) -/

theorem step_of_accessing {s : State} {id : Nat} {a : HostAccess} (h : Accessing s id a) :
    step s = hostAccess id a s.slotTaken := by
  obtain ⟨hc, rest, ha⟩ := h
  exact step_of_cons hc ha

theorem step_of_accessing_admitted {s : State} {id : Nat} {a : HostAccess} (h : Accessing s id a)
    (ha : accessFault a s.slotTaken = none) : step s = .next (accessEffect id a s.slotTaken) :=
  (step_of_accessing h).trans (hostAccess_admitted ha id)

/-- When the access has a next state, that state is the access's effect. -/
theorem eq_accessEffect_of_step {s t : State} {id : Nat} {a : HostAccess} (h : Accessing s id a)
    (ht : step s = .next t) : t = accessEffect id a s.slotTaken := by
  rw [step_of_accessing h] at ht
  cases hf : accessFault a s.slotTaken with
  | none =>
    rw [hostAccess_admitted hf] at ht
    exact (Host.Outcome.next.inj ht).symm
  | some f =>
    rw [hostAccess_notAdmitted hf] at ht
    cases ht

/-! ### The completion of a pending command (30_encoding R77) -/

/-- The result the command in CMD has on the input in IN_BUF: IllegalCommand for an illegal word (60_exceptions R181),
LengthRange for an input out of range (R182), and otherwise the command's own result. -/
def State.pendingResult (s : State) : Except ErrCode (List Byte × Bool) :=
  match decode s.cmd with
  | .ok i => if s.inLen.toNat ≤ s.inCap.toNat then commandResult i s.input else .error .lengthRange
  | .error _ => .error .illegalCommand

theorem engineStep_eq_completeWith (s : State) : engineStep s = .next (s.completeWith s.pendingResult) := by
  unfold engineStep State.pendingResult State.fetch
  cases decode s.cmd with
  | error e => rfl
  | ok i =>
    by_cases hr : s.inLen.toNat ≤ s.inCap.toNat
    · simp only [if_pos hr, exec_inRange hr]
    · simp only [if_neg hr, exec_outOfRange (Nat.lt_of_not_le hr), State.completeWith_error]

/-- Every completion stays within the frame (30_encoding R78, 60_exceptions R183). -/
theorem State.completeWith_frame (s : State) (e : Except ErrCode (List Byte × Bool)) :
    CompletionFrame s (s.completeWith e) := by
  cases e <;> exact ⟨rfl, rfl, rfl, rfl, fun _ => rfl, rfl, rfl, rfl⟩

theorem engineStep_frame {s t : State} (h : engineStep s = .next t) : CompletionFrame s t := by
  cases (engineStep_eq_completeWith s).symm.trans h
  exact s.completeWith_frame _

/-- After a success completion a host can read the output, as far as OUT_LEN can count it. -/
theorem State.complete_output (s : State) (o : List Byte) (r : Bool) :
    (s.complete o r).output = o.take (o.length % 2 ^ 32) := by
  apply List.ext_getElem
  · simp [State.output, Nat.mod_le]
  · intro i hi _
    have hi : i < o.length := by
      simp only [State.output, List.length_map, List.length_range, State.complete_outLen, BitVec.toNat_ofNat] at hi
      exact hi.trans_le (Nat.mod_le _ _)
    simp [State.output, State.complete_outByte, hi]

theorem State.raise_output (s : State) (c : ErrCode) : (s.raise c).output = [] := rfl

/-- What a completion shows a host (OUT_LEN, the output and every STATUS field but COLL) depends on the result alone. -/
theorem State.completeWith_visible (s t : State) (e : Except ErrCode (List Byte × Bool)) :
    (t.completeWith e).output = (s.completeWith e).output ∧ (t.completeWith e).outLen = (s.completeWith e).outLen ∧
    { (t.completeWith e).status with coll := (s.completeWith e).status.coll } = (s.completeWith e).status := by
  cases e with
  | ok p => exact ⟨(t.complete_output p.1 p.2).trans (s.complete_output p.1 p.2).symm, rfl, rfl⟩
  | error c => exact ⟨(t.raise_output c).trans (s.raise_output c).symm, rfl, rfl⟩

/-! ### What the result depends on -/

/-- `t` holds the command word and the input of `s`, for the same input capacity: all a result depends on. -/
structure State.SameCommand (s t : State) : Prop where
  cmd : t.cmd = s.cmd
  inLen : t.inLen = s.inLen
  inCap : t.inCap = s.inCap
  inByte : ∀ i, t.inByte i = s.inByte i

theorem State.SameCommand.trans {s t u : State} (hst : s.SameCommand t) (htu : t.SameCommand u) : s.SameCommand u where
  cmd := htu.cmd.trans hst.cmd
  inLen := htu.inLen.trans hst.inLen
  inCap := htu.inCap.trans hst.inCap
  inByte i := (htu.inByte i).trans (hst.inByte i)

theorem State.slotTaken_sameCommand (s : State) : s.SameCommand s.slotTaken := ⟨rfl, rfl, rfl, fun _ => rfl⟩

theorem State.SameCommand.pendingResult_eq {s t : State} (h : s.SameCommand t) :
    t.pendingResult = s.pendingResult := by
  have hinput : t.input = s.input := by simp only [State.input, h.inLen, funext h.inByte]
  simp only [State.pendingResult, h.cmd, h.inLen, h.inCap, hinput]

/-- While BUSY = 1 an access changes nothing a result depends on: its write, if it is one, is dropped (20_memory R61,
70_reset_and_hazards R218). -/
theorem accessEffect_sameCommand {s : State} (hb : s.status.busy = true) (id : Nat) (a : HostAccess) :
    s.SameCommand (accessEffect id a s) := by
  rcases accessEffect_cases id a s with
    heq | ⟨v, heq⟩ | ⟨v, heq⟩ | ⟨-, heq⟩ | ⟨hidle, -⟩ | ⟨hidle, -⟩ | ⟨hidle, -⟩
  -- nothing, a read, a read that draws, a dropped write
  case inl | inr.inl | inr.inr.inl | inr.inr.inr.inl =>
    rw [heq]
    exact ⟨rfl, rfl, rfl, fun _ => rfl⟩
  -- the three writes an idle block takes
  all_goals simp [hb] at hidle

/-! ### Runs of host accesses -/

/-- A run that answers a next state answers one at its first step. -/
theorem step_of_core_run_succ {s t : State} {k : Nat} (h : core.run (k + 1) s = .next t) :
    ∃ u, step s = .next u ∧ core.run k u = .next t := by
  cases hs : step s with
  | next u => exact ⟨u, rfl, (core_run_succ hs k).symm.trans h⟩
  | fault r =>
    have hstep : core.step s = .fault r := hs
    simp [Host.Core.run, hstep] at h
  | refused r =>
    have hstep : core.step s = .refused r := hs
    simp [Host.Core.run, hstep] at h

/-- However many accesses come first, a pending command stays pending, with its word and its input. -/
theorem hostRun_keeps_pending {rest : List Event} (es : List Event) {s t : State} (hc : s.configOk = true)
    (hb : s.status.busy = true) (ha : s.agenda = es ++ rest) (hes : ∀ e ∈ es, ∃ id a, e = .host id a)
    (hrun : core.run es.length s = .next t) : t.status.busy = true ∧ t.agenda = rest ∧ s.SameCommand t := by
  induction es generalizing s with
  | nil =>
    cases hrun
    exact ⟨hb, ha, ⟨rfl, rfl, rfl, fun _ => rfl⟩⟩
  | cons e es ih =>
    obtain ⟨id, a, rfl⟩ := hes e List.mem_cons_self
    obtain ⟨u, hu, hrun⟩ := step_of_core_run_succ hrun
    cases eq_accessEffect_of_step ⟨hc, es ++ rest, ha⟩ hu
    obtain ⟨hin, hout, hagenda, hbusy⟩ := accessEffect_frame id a s.slotTaken
    have hfirst : s.SameCommand (accessEffect id a s.slotTaken) :=
      s.slotTaken_sameCommand.trans (accessEffect_sameCommand (s := s.slotTaken) hb id a)
    obtain ⟨htb, htr, hlast⟩ := ih ((State.configOk_congr hin hout).trans hc) (hbusy hb) (by simp [hagenda, ha])
      (fun e he => hes e (List.mem_cons_of_mem _ he)) hrun
    exact ⟨htb, htr, hfirst.trans hlast⟩

end Sys2Proof.Machine

namespace Sys2Proof.Proofs

open Sys2Proof.Machine Sys2Proof.Claims

/-- Settles O37: the run keeps the command and its input (`hostRun_keeps_pending`), so its result is the same, and what a
completion shows depends on the result alone. -/
theorem pendingCommandIsUnaffectedByHosts : Obligations.PendingCommandIsUnaffectedByHosts := by
  intro s t es rest hc hb ha hes hrun
  obtain ⟨htb, htr, hsame⟩ := hostRun_keeps_pending es hc hb ha hes hrun
  refine ⟨htb, hsame.cmd, hsame.inLen, hsame.inByte, htr, _, _, engineStep_eq_completeWith s,
    engineStep_eq_completeWith t, ?_⟩
  rw [hsame.pendingResult_eq]
  exact s.completeWith_visible t _

end Sys2Proof.Proofs
end

section
/-! PROOFS of the family 10_state, continued: the registers as hosts read and write them (10_state R22 to R29). -/

namespace Sys2Proof.Machine

open Sys2Proof.Claims

/-! ### Register accesses (20_memory R52) -/

theorem regFault_eq_none {off : Nat} (hle : off ≤ 0xFC) (h4 : off % 4 = 0) : regFault off = none := by
  simp [regFault, Nat.not_lt.mpr hle, h4]

/-- A register read tells its host the register's value and changes nothing else. -/
theorem step_of_regRead {s : State} {id off : Nat} (h : Accessing s id (.regRead off)) (hoff : regFault off = none) :
    step s = .next { s.slotTaken with lastRead := some (id, .word (s.regValue off)) } :=
  step_of_accessing_admitted h hoff

/-- What a register read told its host. -/
theorem lastRead_of_regRead {s t : State} {id off : Nat} (h : Accessing s id (.regRead off)) (ht : step s = .next t) :
    t.lastRead = some (id, .word (s.regValue off)) := by
  cases eq_accessEffect_of_step h ht
  rfl

/-- Only CMD and IN_LEN take a register write. -/
theorem step_of_regWrite_ignored {s : State} {id off : Nat} {v : Word} (h : Accessing s id (.regWrite off v))
    (hoff : regFault off = none) (h0 : off ≠ 0x00) (h8 : off ≠ 0x08) : step s = .next s.slotTaken := by
  rw [step_of_accessing_admitted h hoff]
  simp [accessEffect, State.regWritten, h0, h8]

theorem accessEffect_write_cmd (s : State) (id : Nat) (v : Word) :
    accessEffect id (.regWrite 0x00 v) s = s.writeCmd v := rfl

theorem accessEffect_write_inLen (s : State) (id : Nat) (v : Word) :
    accessEffect id (.regWrite 0x08 v) s = s.writeInLen v := rfl

theorem State.writeCmd_idle {s : State} (h : s.status.busy = false) (v : Word) : s.writeCmd v = s.accept v := by
  simp [State.writeCmd, h]

theorem State.writeCmd_busy {s : State} (h : s.status.busy = true) (v : Word) : s.writeCmd v = s.collide := by
  simp [State.writeCmd, h]

theorem State.writeInLen_idle {s : State} (h : s.status.busy = false) (v : Word) :
    s.writeInLen v = { s with inLen := v } := by
  simp [State.writeInLen, h]

theorem State.writeInLen_busy {s : State} (h : s.status.busy = true) (v : Word) : s.writeInLen v = s.collide := by
  simp [State.writeInLen, h]

theorem eq_accept_of_step_writeCmd {s t : State} {id : Nat} {v : Word} (h : Accessing s id (.regWrite 0x00 v))
    (hb : s.status.busy = false) (ht : step s = .next t) : t = s.slotTaken.accept v := by
  rw [eq_accessEffect_of_step h ht, accessEffect_write_cmd, State.writeCmd_idle (s := s.slotTaken) hb]

theorem eq_collide_of_step_writeCmd {s t : State} {id : Nat} {v : Word} (h : Accessing s id (.regWrite 0x00 v))
    (hb : s.status.busy = true) (ht : step s = .next t) : t = s.slotTaken.collide := by
  rw [eq_accessEffect_of_step h ht, accessEffect_write_cmd, State.writeCmd_busy (s := s.slotTaken) hb]

/-! ### CMD (10_state R23) -/

@[simp] theorem State.writeInLen_cmd (s : State) (v : Word) : (s.writeInLen v).cmd = s.cmd := by
  unfold State.writeInLen
  split <;> rfl

@[simp] theorem State.inWritten_cmd (s : State) (i : Nat) (b : Byte) : (s.inWritten i b).cmd = s.cmd := by
  unfold State.inWritten
  split <;> rfl

@[simp] theorem State.outReturned_cmd (s : State) (id i : Nat) : (s.outReturned id i).cmd = s.cmd := by
  unfold State.outReturned
  split <;> rfl

theorem State.regWritten_cmd {off : Nat} (h : off ≠ 0x00) (s : State) (v : Word) : (s.regWritten off v).cmd = s.cmd := by
  simp only [State.regWritten, if_neg h]
  split
  · exact s.writeInLen_cmd v
  · rfl

/-- Only a write to CMD while idle changes CMD. -/
theorem accessEffect_cmd_changed {s : State} {id : Nat} {a : HostAccess} (h : (accessEffect id a s).cmd ≠ s.cmd) :
    s.status.busy = false ∧ ∃ v, a = .regWrite 0x00 v := by
  cases a with
  | regWrite off v =>
    by_cases h0 : off = 0x00
    · subst h0
      cases hb : s.status.busy with
      | false => exact ⟨rfl, v, rfl⟩
      | true => exact absurd (by rw [accessEffect_write_cmd, State.writeCmd_busy hb]; rfl) h
    · exact absurd (s.regWritten_cmd h0 v) h
  | inWrite i b => exact absurd (s.inWritten_cmd i b) h
  | outRead i => exact absurd (s.outReturned_cmd id i) h
  | regRead | inRead | regReadNarrow | regWriteNarrow | outWrite => exact absurd rfl h

/-- A step that changes CMD is a reset, or a write to CMD while idle, which stores its word. -/
theorem step_cmd_changed {s t : State} (h : step s = .next t) (hne : t.cmd ≠ s.cmd) :
    (∃ rest, s.agenda = .reset :: rest) ∨
    (s.status.busy = false ∧ ∃ id v rest, s.agenda = .host id (.regWrite 0x00 v) :: rest ∧ t.cmd = v) := by
  obtain ⟨hc, ⟨-, -, hrun⟩ | ⟨-, -, rfl⟩ | ⟨rest, ha, -⟩ | ⟨id, a, rest, ha, -, rfl⟩⟩ := step_cases h
  · exact absurd (engineStep_frame hrun).1 hne
  · exact absurd rfl hne
  · exact .inl ⟨rest, ha⟩
  · obtain ⟨hb, v, rfl⟩ := accessEffect_cmd_changed (s := s.slotTaken) hne
    exact .inr ⟨hb, id, v, rest, ha, by rw [eq_accept_of_step_writeCmd ⟨hc, rest, ha⟩ hb h, State.accept_cmd]⟩

/-! ### INCAP and OUTCAP (10_state R27, R28) -/

theorem step_capacities {s t : State} (h : step s = .next t) : t.inCap = s.inCap ∧ t.outCap = s.outCap := by
  obtain ⟨-, ⟨-, -, hrun⟩ | ⟨-, -, rfl⟩ | ⟨_, -, rfl⟩ | ⟨id, a, _, -, -, rfl⟩⟩ := step_cases h
  · obtain ⟨-, -, hin, hout, -⟩ := engineStep_frame hrun
    exact ⟨hin, hout⟩
  · exact ⟨rfl, rfl⟩
  · exact ⟨rfl, rfl⟩
  · obtain ⟨hin, hout, -⟩ := accessEffect_frame id a s.slotTaken
    exact ⟨hin, hout⟩

/-! ### STATUS as a word (10_state R24) -/

/-- Every bit of the word, from the field that has its place. -/
theorem Status.toWord_getLsbD (t : Status) (n : Nat) :
    t.toWord.getLsbD n =
      if n = 0 then t.busy else if n = 1 then t.done else if n = 2 then t.err else if n = 3 then t.result
      else if n < 8 then t.errCode.code.getLsbD (n - 4) else n = 8 && t.coll := by
  unfold Status.toWord
  change BitVec.getLsbD (w := 23 + 1 + 4 + 1 + 1 + 1 + 1) _ n = _
  simp only [BitVec.getLsbD_append, BitVec.getLsbD_ofBool, BitVec.ofNat_eq_ofNat, BitVec.getLsbD_zero]
  match n with
  | 0 | 1 | 2 | 3 => simp
  | n + 4 =>
    by_cases h : n < 4
    · simp [h]
    · have hcoll : n - 4 = 0 ↔ n = 4 := by omega
      have hhigh : ¬ n + 4 < 8 := by omega
      simp [h, hcoll, hhigh]

theorem Status.toWord_reset : Status.reset.toWord = 0 := by decide

theorem Status.toWord_errCode (t : Status) : t.toWord.extractLsb' 4 4 = t.errCode.code := by
  ext i hi
  rw [BitVec.getElem_extractLsb', Status.toWord_getLsbD]
  iterate 4 rw [if_neg (by omega)]
  rw [if_pos (by omega), Nat.add_sub_cancel_left, BitVec.getLsbD_eq_getElem hi]

theorem Status.toWord_reserved (t : Status) : t.toWord.extractLsb' 9 23 = 0 := by
  ext i hi
  rw [BitVec.getElem_extractLsb', Status.toWord_getLsbD]
  iterate 5 rw [if_neg (by omega)]
  have hcoll : 9 + i ≠ 8 := by omega
  simp [hcoll]

end Sys2Proof.Machine

namespace Sys2Proof.Proofs

open Sys2Proof.Machine Sys2Proof.Claims

/-- Settles O15: only acceptance and reset write CMD. -/
theorem cmdHoldsTheLastAcceptedWord : Obligations.CmdHoldsTheLastAcceptedWord := by
  refine ⟨fun s t id v h ht => ⟨fun hb => ?_, fun hb => ?_⟩, fun s t id h ht => ⟨lastRead_of_regRead h ht, ?_⟩,
    fun s t h => ?_, fun s => s.resetBlock_cmd, rfl, fun s t => step_cmd_changed⟩
  · rw [eq_accept_of_step_writeCmd h hb ht]
    exact ⟨rfl, rfl⟩
  · rw [eq_collide_of_step_writeCmd h hb ht]
    exact ⟨rfl, rfl⟩
  · rw [eq_accessEffect_of_step h ht]
    rfl
  · obtain ⟨hcmd, -⟩ := engineStep_frame h
    exact hcmd

/-- Settles O16: a host's write stores IN_LEN only while idle, and every command checks its range first. -/
theorem inLenHoldsTheLastStoredValue : Obligations.InLenHoldsTheLastStoredValue := by
  refine ⟨fun s t id v h ht => ⟨fun hb => ?_, fun hb => ?_⟩, fun s t id h ht => ⟨lastRead_of_regRead h ht, ?_⟩,
    fun s t h => ?_, fun s => s.resetBlock_inLen, rfl, fun i s h => ⟨_, exec_outOfRange h i, rfl⟩⟩
  · rw [eq_accessEffect_of_step h ht, accessEffect_write_inLen, State.writeInLen_idle (s := s.slotTaken) hb]
    exact ⟨rfl, rfl⟩
  · rw [eq_accessEffect_of_step h ht, accessEffect_write_inLen, State.writeInLen_busy (s := s.slotTaken) hb]
    exact ⟨rfl, rfl⟩
  · rw [eq_accessEffect_of_step h ht]
    rfl
  · obtain ⟨-, hlen, -⟩ := engineStep_frame h
    exact hlen

/-- Settles O17: no access, completion or reset writes a capacity (`step_capacities`). -/
theorem capacityRegistersAreConstant : Obligations.CapacityRegistersAreConstant := by
  refine ⟨fun s t id => lastRead_of_regRead, fun s t id => lastRead_of_regRead, fun s id v off hoff h => ?_,
    fun s t => step_capacities⟩
  rcases hoff with rfl | rfl <;> exact step_of_regWrite_ignored h (by decide) (by decide) (by decide)

/-- Settles O18: a reserved offset is admitted, holds no register and takes no write. -/
theorem reservedOffsetsReadZeroAndIgnoreWrites : Obligations.ReservedOffsetsReadZeroAndIgnoreWrites := by
  intro s id off hlow hhigh h4
  have hoff := regFault_eq_none hhigh h4
  constructor
  · intro h
    rw [step_of_regRead h hoff, State.regValue_reserved s hlow]
  · intro v h
    exact step_of_regWrite_ignored h hoff (by omega) (by omega)

/-- Settles O19: the value read is `Status.toWord`, and each field has its place in it. -/
theorem statusReadsItsFieldsAndIgnoresWrites : Obligations.StatusReadsItsFieldsAndIgnoresWrites := by
  refine ⟨fun s id v h => step_of_regWrite_ignored h (by decide) (by decide) (by decide),
    fun s id h => ⟨s.status.toWord, step_of_regRead h (by decide), ?_⟩, by decide⟩
  have bit := s.status.toWord_getLsbD
  exact ⟨bit 0, bit 1, bit 2, bit 3, s.status.toWord_errCode, bit 8, s.status.toWord_reserved⟩

/-- Settles O60: only acceptance, a completion and a reset write OUT_LEN. -/
theorem outLenReadsAsStoredAndIgnoresWrites : Obligations.OutLenReadsAsStoredAndIgnoresWrites := by
  refine ⟨fun s id h => step_of_regRead h (by decide),
    fun s id v h => step_of_regWrite_ignored h (by decide) (by decide) (by decide), fun s t id v h hb ht => ?_,
    fun s t h herr => ?_, fun _ => rfl, rfl⟩
  · rw [eq_accept_of_step_writeCmd h hb ht]
    rfl
  · rcases engineStep_cases s with ⟨c, -, heq⟩ | ⟨o, r, heq⟩ <;> cases heq.symm.trans h
    · rfl
    · simp at herr

/-- Settles O28: what each offset reads in the reset state. -/
theorem registersAfterReset : Obligations.RegistersAfterReset :=
  fun _ _ => ⟨rfl, Status.toWord_reset, rfl, rfl, rfl, rfl, fun _ h _ => State.regValue_reserved _ h, rfl⟩

end Sys2Proof.Proofs
end

section
/-! PROOFS of the family 10_state, continued: the invariant after reset (10_state R40). -/

namespace Sys2Proof.Machine

/-- After reset the buffers define no byte and nothing is pending, so only the capacities have to be well formed. -/
theorem Inv.resetWith {inCap outCap : Word} (h : configOk inCap outCap = true) : Inv (State.resetWith inCap outCap) where
  config := h
  status := Status.legal_reset
  inForm := List.Pairwise.nil
  inBound _ hc := absurd hc List.not_mem_nil
  outForm := List.Pairwise.nil
  outBound _ hc := absurd hc List.not_mem_nil
  outLen := Nat.zero_le _
  busyLen _ := rfl
  defined _ i hi := absurd hi (Nat.not_lt_zero i)
  inFresh := Nat.zero_lt_one
  outFresh := Nat.zero_lt_one

end Sys2Proof.Machine

namespace Sys2Proof.Proofs

open Sys2Proof.Machine

/-- Settles O29: `Inv.resetWith`, of which `State.reset` is the case of log entry 2. -/
theorem invariantHoldsAfterReset : Obligations.InvariantHoldsAfterReset :=
  ⟨fun _ _ => Inv.resetWith, Inv.resetWith (by decide)⟩

end Sys2Proof.Proofs
end

section
/-! PROOFS of the family 10_state, continued: the ROMs (10_state R33 to R37). Codes are compared as numbers, so that each
inverse is a matter of ranges. -/

namespace Sys2Proof.Machine

/-! ### The Base64 alphabets (10_state R34, R35) -/

theorem b64Std_toNat (v : BitVec 6) :
    (b64Std v).toNat =
      if v.toNat ≤ 25 then 0x41 + v.toNat else if v.toNat ≤ 51 then 0x61 + (v.toNat - 26)
      else if v.toNat ≤ 61 then 0x30 + (v.toNat - 52) else if v.toNat = 62 then 0x2B else 0x2F := by
  simp only [b64Std]
  split_ifs
  case pos | pos | pos => exact Nat.mod_eq_of_lt (by omega)
  all_goals rfl

theorem b64Url_toNat (v : BitVec 6) :
    (b64Url v).toNat = if v.toNat ≤ 61 then (b64Std v).toNat else if v.toNat = 62 then 0x2D else 0x5F := by
  unfold b64Url
  split_ifs <;> rfl

/-- The ranges of B64VAL, with the value in each. -/
theorem b64Val_eq_some_iff (c : Byte) (v : BitVec 6) :
    b64Val c = some v ↔
      (0x41 ≤ c.toNat ∧ c.toNat ≤ 0x5A ∧ v.toNat = c.toNat - 0x41) ∨
      (0x61 ≤ c.toNat ∧ c.toNat ≤ 0x7A ∧ v.toNat = c.toNat - 0x61 + 26) ∨
      (0x30 ≤ c.toNat ∧ c.toNat ≤ 0x39 ∧ v.toNat = c.toNat - 0x30 + 52) ∨
      ((c.toNat = 0x2B ∨ c.toNat = 0x2D) ∧ v.toNat = 62) ∨ ((c.toNat = 0x2F ∨ c.toNat = 0x5F) ∧ v.toNat = 63) := by
  simp only [b64Val]
  split_ifs <;> simp [← BitVec.toNat_inj] <;> omega

/-! ### The hex digits (10_state R36, R37) -/

theorem hexLo_toNat (v : BitVec 4) :
    (hexLo v).toNat = if v.toNat ≤ 9 then 0x30 + v.toNat else 0x61 + (v.toNat - 10) := by
  unfold hexLo
  split_ifs <;> exact Nat.mod_eq_of_lt (by omega)

theorem hexUp_toNat (v : BitVec 4) :
    (hexUp v).toNat = if v.toNat ≤ 9 then 0x30 + v.toNat else 0x41 + (v.toNat - 10) := by
  unfold hexUp
  split_ifs <;> exact Nat.mod_eq_of_lt (by omega)

/-- The ranges of HEXVAL, with the value in each. -/
theorem hexVal_eq_some_iff (c : Byte) (v : BitVec 4) :
    hexVal c = some v ↔
      (0x30 ≤ c.toNat ∧ c.toNat ≤ 0x39 ∧ v.toNat = c.toNat - 0x30) ∨
      (0x61 ≤ c.toNat ∧ c.toNat ≤ 0x66 ∧ v.toNat = c.toNat - 0x61 + 10) ∨
      (0x41 ≤ c.toNat ∧ c.toNat ≤ 0x46 ∧ v.toNat = c.toNat - 0x41 + 10) := by
  simp only [hexVal]
  split_ifs <;> simp [← BitVec.toNat_inj] <;> omega

end Sys2Proof.Machine

namespace Sys2Proof.Proofs

open Sys2Proof.Machine Sys2Proof.Claims

/-- Settles O4: the four tables are closed, 64 or 16 entries each. -/
theorem romContents : Obligations.RomContents :=
  ⟨rfl, rfl, rfl, rfl⟩

/-- Settles O5: the ranges of B64VAL are those of the two alphabets. -/
theorem b64ValInvertsBothAlphabets : Obligations.B64ValInvertsBothAlphabets := by
  intro c v
  rw [b64Val_eq_some_iff, ← BitVec.toNat_inj, ← BitVec.toNat_inj, b64Url_toNat, b64Std_toNat]
  have hv := v.isLt
  split_ifs <;> omega

/-- Settles O6: the ranges of HEXVAL are those of the two digit tables. -/
theorem hexValInvertsBothDigitTables : Obligations.HexValInvertsBothDigitTables := by
  intro c v
  rw [hexVal_eq_some_iff, ← BitVec.toNat_inj, ← BitVec.toNat_inj, hexLo_toNat, hexUp_toNat]
  have hv := v.isLt
  split_ifs <;> omega

end Sys2Proof.Proofs
end

section
/-! PROOFS of the family 20_memory: what the accesses to the two buffers do in each phase (20_memory R53, R54), and why a
result stays visible (R63). -/

namespace Sys2Proof.Machine

open Sys2Proof.Claims

/-! ### The accesses to the buffers, idle and busy (20_memory R53, R54) -/

theorem State.inWritten_idle {s : State} (h : s.status.busy = false) (i : Nat) (b : Byte) :
    s.inWritten i b = { s with inBuf := Memory.write s.inBuf i b } := by
  simp [State.inWritten, h]

theorem State.inWritten_busy {s : State} (h : s.status.busy = true) (i : Nat) (b : Byte) :
    s.inWritten i b = s.collide := by
  simp [State.inWritten, h]

theorem State.outReturned_idle {s : State} (h : s.status.busy = false) (id i : Nat) :
    s.outReturned id i = s.returned id (.byte (s.outByte i)) := by
  simp [State.outReturned, h]

theorem State.outReturned_busy {s : State} (h : s.status.busy = true) (id i : Nat) :
    s.outReturned id i =
      { s.returned id (.byte (Config.busyByte s.nextDraw)) with nextDraw := s.nextDraw + 1 } := by
  simp [State.outReturned, h]

/-! ### Results that stay visible (20_memory R63, 70_reset_and_hazards R220) -/

/-- `t` shows hosts the result that `s` shows: STATUS, OUT_LEN and every byte of OUT_BUF, for the same word in CMD. -/
structure State.SameResult (s t : State) : Prop where
  status : t.status = s.status
  outLen : t.outLen = s.outLen
  outByte : ∀ i, t.outByte i = s.outByte i
  cmd : t.cmd = s.cmd

theorem State.SameResult.refl (s : State) : s.SameResult s := ⟨rfl, rfl, fun _ => rfl, rfl⟩

theorem State.SameResult.trans {s t u : State} (hst : s.SameResult t) (htu : t.SameResult u) : s.SameResult u where
  status := htu.status.trans hst.status
  outLen := htu.outLen.trans hst.outLen
  outByte i := (htu.outByte i).trans (hst.outByte i)
  cmd := htu.cmd.trans hst.cmd

theorem State.SameResult.output {s t : State} (h : s.SameResult t) : t.output = s.output := by
  simp only [State.output, h.outLen, funext h.outByte]

theorem State.slotTaken_sameResult (s : State) : s.SameResult s.slotTaken := ⟨rfl, rfl, fun _ => rfl, rfl⟩

/-- While idle, only a write to CMD touches the result: the other writes that are taken go to IN_LEN and IN_BUF. -/
theorem accessEffect_sameResult {s : State} {id : Nat} {a : HostAccess} (hb : s.status.busy = false)
    (ha : ∀ v, a ≠ .regWrite 0x00 v) : s.SameResult (accessEffect id a s) := by
  cases a with
  | regRead | inRead => exact ⟨rfl, rfl, fun _ => rfl, rfl⟩
  | regReadNarrow | regWriteNarrow | outWrite => exact .refl s
  | outRead i =>
    rw [accessEffect, State.outReturned_idle hb]
    exact ⟨rfl, rfl, fun _ => rfl, rfl⟩
  | inWrite i b =>
    rw [accessEffect, State.inWritten_idle hb]
    exact ⟨rfl, rfl, fun _ => rfl, rfl⟩
  | regWrite off v =>
    have h0 : off ≠ 0x00 := fun h => ha v (by rw [h])
    simp only [accessEffect, State.regWritten, if_neg h0]
    split
    · rw [State.writeInLen_idle hb]
      exact ⟨rfl, rfl, fun _ => rfl, rfl⟩
    · exact .refl s

/-- A quiet event of an idle block keeps the result, and uses up its entry. -/
theorem step_quiet_sameResult {s t : State} {e : Event} {rest : List Event} (hb : s.status.busy = false)
    (ha : s.agenda = e :: rest) (he : Quiet e) (ht : step s = .next t) : t.agenda = rest ∧ s.SameResult t := by
  obtain ⟨hreset, hcmd⟩ := he
  obtain ⟨-, ⟨hbusy, -⟩ | ⟨-, -, rfl⟩ | ⟨_, hr, -⟩ | ⟨id, a, _, hr, -, rfl⟩⟩ := step_cases ht
  · simp [hb] at hbusy
  · exact ⟨by simp [ha], s.slotTaken_sameResult⟩
  · cases ha.symm.trans hr
    exact absurd rfl hreset
  · cases ha.symm.trans hr
    obtain ⟨-, -, hagenda, -⟩ := accessEffect_frame id a s.slotTaken
    have heffect : s.slotTaken.SameResult (accessEffect id a s.slotTaken) :=
      accessEffect_sameResult hb fun v h => hcmd id v (by rw [h])
    exact ⟨by simp [hagenda, ha], s.slotTaken_sameResult.trans heffect⟩

/-- However many quiet events happen to an idle block, its result stays. -/
theorem quietRun_sameResult {rest : List Event} (es : List Event) {s t : State} (hb : s.status.busy = false)
    (ha : s.agenda = es ++ rest) (hes : ∀ e ∈ es, Quiet e) (hrun : core.run es.length s = .next t) :
    s.SameResult t := by
  induction es generalizing s with
  | nil =>
    cases hrun
    exact .refl _
  | cons e es ih =>
    obtain ⟨u, hu, hrun⟩ := step_of_core_run_succ hrun
    obtain ⟨hagenda, hfirst⟩ := step_quiet_sameResult hb ha (hes e List.mem_cons_self) hu
    have hidle : u.status.busy = false := by rw [hfirst.status, hb]
    exact hfirst.trans (ih hidle hagenda (fun e he => hes e (List.mem_cons_of_mem _ he)) hrun)

end Sys2Proof.Machine

namespace Sys2Proof.Proofs

open Sys2Proof.Machine Sys2Proof.Claims

/-- Settles O38: `quietRun_sameResult`, an induction on the run. -/
theorem resultStaysVisibleUntilNextCommand : Obligations.ResultStaysVisibleUntilNextCommand := by
  intro s t es rest hb ha hes hrun
  have h := quietRun_sameResult es hb ha hes hrun
  exact ⟨h.status, h.outLen, h.outByte, h.output, h.cmd⟩

end Sys2Proof.Proofs
end

section
/-! PROOFS of the family 20_memory, continued: the domain of an access (20_memory R51), IN_BUF after a write (R53) and
what a read leaves alone (R59). -/

namespace Sys2Proof.Machine

open Sys2Proof.Claims

/-! ### The domain of an access (20_memory R51) -/

theorem regFault_eq_none_iff (off : Nat) : regFault off = none ↔ off % 4 = 0 ∧ off ≤ 0xFC := by
  unfold regFault
  split_ifs <;> simp <;> omega

/-- The access is admitted exactly in its stated domain. -/
theorem accessFault_eq_none_iff (a : HostAccess) (s : State) : accessFault a s = none ↔ InDomain s a := by
  cases a with
  | regRead off => exact regFault_eq_none_iff off
  | regWrite off v => exact regFault_eq_none_iff off
  | inRead | inWrite | outRead | regReadNarrow | regWriteNarrow | outWrite => simp [accessFault, InDomain]

theorem accessFault_slotTaken (a : HostAccess) (s : State) : accessFault a s.slotTaken = accessFault a s :=
  accessFault_congr rfl rfl a

/-- Inside its domain an access has its effect. -/
theorem step_of_inDomain {s : State} {id : Nat} {a : HostAccess} (h : Accessing s id a) (hd : InDomain s a) :
    step s = .next (accessEffect id a s.slotTaken) :=
  step_of_accessing_admitted h ((accessFault_slotTaken a s).trans ((accessFault_eq_none_iff a s).mpr hd))

/-- Outside its domain an access is a fault. -/
theorem step_of_not_inDomain {s : State} {id : Nat} {a : HostAccess} (h : Accessing s id a) (hd : ¬ InDomain s a) :
    ∃ f, step s = .fault f := by
  rw [← accessFault_eq_none_iff] at hd
  obtain ⟨f, hf⟩ := Option.ne_none_iff_exists'.mp hd
  exact ⟨f, (step_of_accessing h).trans (hostAccess_notAdmitted ((accessFault_slotTaken a s).trans hf) id)⟩

/-- Only a host's access outside its domain faults: an engine slot and a reset have a next state. -/
theorem not_inDomain_of_step_fault {s : State} {f : Fault} (hf : step s = .fault f) :
    ∃ id a rest, s.agenda = .host id a :: rest ∧ ¬ InDomain s a := by
  have hc : s.configOk = true := by
    by_contra hc
    simp [step_illFormed (Bool.eq_false_iff.mpr hc)] at hf
  have slot (u : State) : engineSlot u ≠ .fault f := by
    obtain ⟨t, ht, -⟩ := engineSlot_ends u
    simp [ht]
  cases ha : s.agenda with
  | nil => exact absurd ((step_of_nil hc ha).symm.trans hf) (slot s)
  | cons e rest =>
    cases e with
    | engine => exact absurd ((step_of_cons hc ha).symm.trans hf) (slot s.slotTaken)
    | reset => cases (step_of_cons hc ha).symm.trans hf
    | host id a =>
      refine ⟨id, a, rest, rfl, fun hd => ?_⟩
      cases (step_of_inDomain ⟨hc, rest, ha⟩ hd).symm.trans hf

/-! ### IN_BUF after a write (20_memory R53) -/

theorem State.inByte_write_same (s : State) (i : Nat) (b : Byte) :
    ({ s with inBuf := Memory.write s.inBuf i b } : State).inByte i = b := by
  simp only [State.inByte, Memory.read_write_same]

theorem State.inByte_write_other (s : State) {i j : Nat} (b : Byte) (h : j ≠ i) :
    ({ s with inBuf := Memory.write s.inBuf i b } : State).inByte j = s.inByte j := by
  simp only [State.inByte, Memory.read_write_other _ b h]

/-- A write to IN_BUF, taken or dropped, reaches nothing but IN_BUF and STATUS. -/
theorem State.inWritten_frame (s : State) (i : Nat) (b : Byte) :
    (∀ j, (s.inWritten i b).outByte j = s.outByte j) ∧ (s.inWritten i b).cmd = s.cmd ∧
    (s.inWritten i b).inLen = s.inLen ∧ (s.inWritten i b).outLen = s.outLen ∧ (s.inWritten i b).inCap = s.inCap ∧
    (s.inWritten i b).outCap = s.outCap ∧ (s.inWritten i b).lastRead = s.lastRead := by
  unfold State.inWritten
  split <;> exact ⟨fun _ => rfl, rfl, rfl, rfl, rfl, rfl, rfl⟩

/-! ### Reads (20_memory R59) -/

/-- A read of OUT_BUF changes only what its host learned and, while BUSY = 1, the number of the next draw. -/
theorem State.outReturned_frame (s : State) (id i : Nat) :
    s.outReturned id i =
      { s with lastRead := (s.outReturned id i).lastRead, nextDraw := (s.outReturned id i).nextDraw } ∧
    ((s.outReturned id i).nextDraw ≠ s.nextDraw → s.status.busy = true) := by
  cases hb : s.status.busy with
  | false =>
    rw [State.outReturned_idle hb]
    exact ⟨rfl, fun hne => absurd rfl hne⟩
  | true =>
    rw [State.outReturned_busy hb]
    exact ⟨rfl, fun _ => rfl⟩

end Sys2Proof.Machine

namespace Sys2Proof.Proofs

open Sys2Proof.Machine Sys2Proof.Claims

/-- Settles O13: `accessFault` names a fault exactly outside the domain, and nothing else faults. -/
theorem accessFaultsExactlyOutsideItsDomain : Obligations.AccessFaultsExactlyOutsideItsDomain :=
  ⟨fun _ _ _ h => ⟨fun hd => ⟨_, step_of_inDomain h hd⟩, step_of_not_inDomain h⟩,
    fun _ _ => not_inDomain_of_step_fault⟩

/-- Settles O20: the write is taken while idle and dropped while busy; the read is the access's effect. -/
theorem inBufferReadsBackWhatWasWritten : Obligations.InBufferReadsBackWhatWasWritten := by
  refine ⟨fun s id i b h hi => ⟨s.slotTaken.inWritten i b, step_of_inDomain h hi, fun hb => ?_, fun hb => ?_,
    s.slotTaken.inWritten_frame i b⟩, fun s id i h hi => step_of_inDomain h hi⟩
  · rw [State.inWritten_idle (s := s.slotTaken) hb]
    exact ⟨s.slotTaken.inByte_write_same i b, fun j hj => s.slotTaken.inByte_write_other b hj, rfl⟩
  · rw [State.inWritten_busy (s := s.slotTaken) hb]
    exact ⟨fun _ => rfl, rfl⟩

/-- Settles O21: an OUT read's effect in each phase. -/
theorem outBufferReads : Obligations.OutBufferReads := by
  intro s id i h hi
  have hstep : step s = .next (s.slotTaken.outReturned id i) := step_of_inDomain h hi
  constructor
  · intro hb
    rw [hstep, State.outReturned_idle (s := s.slotTaken) hb]
    rfl
  · intro hb
    rw [hstep, State.outReturned_busy (s := s.slotTaken) hb]
    rfl

/-- Settles O24: a register or IN read only returns its value, and an OUT read may also draw. -/
theorem readsHaveNoSideEffect : Obligations.ReadsHaveNoSideEffect := by
  intro s t id a hread h ht
  rw [eq_accessEffect_of_step h ht]
  rcases hread with ⟨off, rfl⟩ | ⟨i, rfl⟩ | ⟨i, rfl⟩
  · exact ⟨rfl, fun hne => absurd rfl hne⟩
  · exact ⟨rfl, fun hne => absurd rfl hne⟩
  · obtain ⟨hframe, hdraw⟩ := s.slotTaken.outReturned_frame id i
    exact ⟨hframe, fun hne => ⟨hdraw hne, i, rfl⟩⟩

end Sys2Proof.Proofs
end

section
/-! PROOFS of the family 30_encoding: the fields of a command word (30_encoding R71), and the decoder, the encoder and
`legalWord` in terms of them. -/

namespace Sys2Proof

/-! ### The fields of a word (30_encoding R71) -/

/-- Every bit of a word lies in the field that has its place. -/
theorem getLsbD_eq_field (w : Word) (n : Nat) :
    w.getLsbD n =
      if n < 4 then (opField w).getLsbD n else if n < 8 then (lowReserved w).getLsbD (n - 4)
      else if n = 8 then chunkedBit w else if n = 9 then urlSafeBit w else if n = 10 then lowerBit w
      else (highReserved w).getLsbD (n - 11) := by
  simp only [opField, lowReserved, highReserved, chunkedBit, urlSafeBit, lowerBit, BitVec.getLsbD_extractLsb']
  split_ifs <;> grind

theorem packWord_getLsbD (op : BitVec 4) (c u l : Bool) (n : Nat) :
    (packWord op c u l).getLsbD n =
      if n < 4 then op.getLsbD n else if n < 8 then false else if n = 8 then c else if n = 9 then u
      else if n = 10 then l else false := by
  unfold packWord
  change BitVec.getLsbD (w := 21 + 1 + 1 + 1 + 4 + 4) _ n = _
  simp only [BitVec.getLsbD_append, BitVec.getLsbD_ofBool, BitVec.ofNat_eq_ofNat, BitVec.getLsbD_zero]
  split_ifs <;> grind

theorem chunkedBit_packWord (op : BitVec 4) (c u l : Bool) : chunkedBit (packWord op c u l) = c :=
  packWord_getLsbD op c u l 8

theorem urlSafeBit_packWord (op : BitVec 4) (c u l : Bool) : urlSafeBit (packWord op c u l) = u :=
  packWord_getLsbD op c u l 9

theorem lowerBit_packWord (op : BitVec 4) (c u l : Bool) : lowerBit (packWord op c u l) = l :=
  packWord_getLsbD op c u l 10

theorem opField_packWord (op : BitVec 4) (c u l : Bool) : opField (packWord op c u l) = op := by
  ext i hi
  simp [opField, packWord_getLsbD, hi]

theorem lowReserved_packWord (op : BitVec 4) (c u l : Bool) : lowReserved (packWord op c u l) = 0 := by
  ext i hi
  rw [lowReserved, BitVec.getElem_extractLsb', packWord_getLsbD, if_neg (by omega), if_pos (by omega)]
  simp

theorem highReserved_packWord (op : BitVec 4) (c u l : Bool) : highReserved (packWord op c u l) = 0 := by
  ext i hi
  rw [highReserved, BitVec.getElem_extractLsb', packWord_getLsbD]
  iterate 5 rw [if_neg (by omega)]
  simp

/-- The fields determine the word: it is the pattern of R71. -/
theorem eq_packWord_iff (w : Word) (op : BitVec 4) (c u l : Bool) :
    w = packWord op c u l ↔
      highReserved w = 0 ∧ lowReserved w = 0 ∧ opField w = op ∧ chunkedBit w = c ∧ urlSafeBit w = u ∧
      lowerBit w = l := by
  constructor
  · rintro rfl
    exact ⟨highReserved_packWord .., lowReserved_packWord .., opField_packWord .., chunkedBit_packWord ..,
      urlSafeBit_packWord .., lowerBit_packWord ..⟩
  · rintro ⟨hhigh, hlow, rfl, rfl, rfl, rfl⟩
    apply BitVec.eq_of_getLsbD_eq
    intro n _
    rw [packWord_getLsbD, getLsbD_eq_field, hhigh, hlow]
    simp

/-! ### The decoder and the encoder (30_encoding R72) -/

theorem decode_encode (i : Instr) : decode (encode i) = .ok i := by
  cases i with
  | enc64 c u => cases c <;> cases u <;> rfl
  | enchex l => cases l <;> rfl
  | enc64us | dec64 | isb64 | dechex => rfl

theorem eq_encode_of_decode {w : Word} {i : Instr} (h : decode w = .ok i) : w = encode i := by
  unfold decode at h
  split_ifs at h <;> cases h
  -- the branches that answer a command: the tests made on the way are the fields of its pattern
  all_goals
    rw [encode, eq_packWord_iff]
    simp_all

theorem decode_eq_ok_iff (w : Word) (i : Instr) : decode w = .ok i ↔ w = encode i :=
  ⟨eq_encode_of_decode, fun h => h ▸ decode_encode i⟩

/-! ### The legal words (30_encoding R73) -/

theorem extractLsb'_eq_zero_iff (w : Word) (start len : Nat) :
    w.extractLsb' start len = 0 ↔ ∀ i < len, w.getLsbD (start + i) = false := by
  constructor
  · intro h i hi
    simpa [hi] using congrArg (fun v => v.getLsbD i) h
  · intro h
    ext i hi
    simp [h i hi]

theorem extractLsb'_lower_eq_zero_iff (w : Word) : w.extractLsb' 10 1 = 0 ↔ lowerBit w = false := by
  rw [extractLsb'_eq_zero_iff]
  simp [lowerBit]

theorem extractLsb'_chunked_urlSafe_eq_zero_iff (w : Word) :
    w.extractLsb' 8 2 = 0 ↔ chunkedBit w = false ∧ urlSafeBit w = false := by
  rw [extractLsb'_eq_zero_iff]
  simp [Nat.le_one_iff_eq_zero_or_eq_one, or_imp, forall_and, chunkedBit, urlSafeBit]

theorem extractLsb'_options_eq_zero_iff (w : Word) :
    w.extractLsb' 8 3 = 0 ↔ chunkedBit w = false ∧ urlSafeBit w = false ∧ lowerBit w = false := by
  rw [extractLsb'_eq_zero_iff]
  simp [Nat.forall_lt_succ_right, Nat.le_one_iff_eq_zero_or_eq_one, or_imp, forall_and, chunkedBit, urlSafeBit, lowerBit,
    and_assoc]

/-- `legal(w)` is the formula of R73. -/
theorem legalWord_iff (w : Word) :
    legalWord w = true ↔
      w.extractLsb' 11 21 = 0 ∧ w.extractLsb' 4 4 = 0 ∧
      ((w.extractLsb' 0 4 = 1 ∧ w.extractLsb' 10 1 = 0) ∨ (w.extractLsb' 0 4 = 5 ∧ w.extractLsb' 8 2 = 0) ∨
       ((w.extractLsb' 0 4 = 2 ∨ w.extractLsb' 0 4 = 3 ∨ w.extractLsb' 0 4 = 4 ∨ w.extractLsb' 0 4 = 6) ∧
        w.extractLsb' 8 3 = 0)) := by
  unfold legalWord reservedBitsZero opAssigned optionsAllowed
  generalize w.extractLsb' 0 4 = op
  by_cases h1 : op = 1#4
  · simp [h1, and_assoc]
  · by_cases h5 : op = 5#4
    · simp [h5, and_assoc]
    · simp [h1, h5, and_assoc, or_assoc]

theorem legalWord_iff_encode (w : Word) : legalWord w = true ↔ ∃ i, w = encode i := by
  constructor
  · rw [legalWord_iff, extractLsb'_lower_eq_zero_iff, extractLsb'_chunked_urlSafe_eq_zero_iff,
      extractLsb'_options_eq_zero_iff]
    rintro ⟨hhigh, hlow, ⟨hop, hl⟩ | ⟨hop, hc, hu⟩ | ⟨hop, hc, hu, hl⟩⟩
    · exact ⟨.enc64 _ _, (eq_packWord_iff ..).mpr ⟨hhigh, hlow, hop, rfl, rfl, hl⟩⟩
    · exact ⟨.enchex _, (eq_packWord_iff ..).mpr ⟨hhigh, hlow, hop, hc, hu, rfl⟩⟩
    · have hw (op : BitVec 4) (hop : opField w = op) : w = packWord op false false false :=
        (eq_packWord_iff ..).mpr ⟨hhigh, hlow, hop, hc, hu, hl⟩
      rcases hop with hop | hop | hop | hop
      · exact ⟨.enc64us, hw 2 hop⟩
      · exact ⟨.dec64, hw 3 hop⟩
      · exact ⟨.isb64, hw 4 hop⟩
      · exact ⟨.dechex, hw 6 hop⟩
  · rintro ⟨i, rfl⟩
    cases i with
    | enc64 c u => exact Laws.EncodedWordLegal.enc64 c u
    | enc64us => exact Laws.EncodedWordLegal.enc64us
    | dec64 => exact Laws.EncodedWordLegal.dec64
    | isb64 => exact Laws.EncodedWordLegal.isb64
    | enchex l => exact Laws.EncodedWordLegal.enchex l
    | dechex => exact Laws.EncodedWordLegal.dechex

/-- A mask leaves a field alone where all its bits are one. -/
theorem extractLsb'_and_of_allOnes (w : Word) {m : Word} {start len : Nat}
    (hm : m.extractLsb' start len = .allOnes len) :
    (w &&& m).extractLsb' start len = w.extractLsb' start len := by
  rw [BitVec.extractLsb'_and, hm, BitVec.and_allOnes]

/-- A row of the opcode table whose mask keeps OP and the reserved bits selects the words of its OP, with any values of
the option bits that the mask leaves out and zero in the others. -/
theorem and_mask_eq_packWord_iff {m : Word} (hhigh : highReserved m = .allOnes 21) (hlow : lowReserved m = .allOnes 4)
    (hop : opField m = .allOnes 4) (w : Word) (op : BitVec 4) :
    w &&& m = packWord op false false false ↔
      ∃ c u l, w = packWord op (c && !chunkedBit m) (u && !urlSafeBit m) (l && !lowerBit m) := by
  have hh : highReserved (w &&& m) = highReserved w := extractLsb'_and_of_allOnes w hhigh
  have hl : lowReserved (w &&& m) = lowReserved w := extractLsb'_and_of_allOnes w hlow
  have ho : opField (w &&& m) = opField w := extractLsb'_and_of_allOnes w hop
  have option (b b' : Bool) : (b && b') = false ↔ ∃ a, b = (a && !b') := by
    cases b <;> cases b' <;> decide
  simp only [eq_packWord_iff, hh, hl, ho, exists_and_left, exists_and_right]
  simp only [chunkedBit, urlSafeBit, lowerBit, BitVec.getLsbD_and, option]

end Sys2Proof

namespace Sys2Proof.Machine

/-! ### The spellings (30_encoding R79) -/

theorem mem_allCommands (i : Instr) : i ∈ allCommands := by
  cases i with
  | enc64 c u => cases c <;> cases u <;> decide
  | enchex l => cases l <;> decide
  | enc64us | dec64 | isb64 | dechex => decide

/-- A spelling names its command: the spellings differ (30_encoding R79). -/
theorem commandOf_spelling (i : Instr) : commandOf (spelling i) = some i := by
  cases i with
  | enc64 c u => cases c <;> cases u <;> decide
  | enchex l => cases l <;> decide
  | enc64us | dec64 | isb64 | dechex => decide

end Sys2Proof.Machine

namespace Sys2Proof.Proofs

open Sys2Proof.Machine Sys2Proof.Claims

/-- Settles O1: `encode` is a right inverse of `decode`, and the fields that the decoder tests determine the word. -/
theorem decodeAgreesWithEncode : Obligations.DecodeAgreesWithEncode :=
  decode_eq_ok_iff

/-- Settles O2: the words of the ten commands, and what the mask of each row leaves of a word. -/
theorem legalWordsSelectOneCommandEach : Obligations.LegalWordsSelectOneCommandEach := by
  intro w
  have fullMask : w &&& 0xFFFFFFFF = w := BitVec.and_allOnes
  simp only [decode_eq_ok_iff, fullMask]
  refine ⟨legalWord_iff w, legalWord_iff_encode w, ?_, ?_, Iff.rfl, Iff.rfl, Iff.rfl, ?_, Iff.rfl⟩
  · rw [legalWord_iff_encode]
    change _ ↔ w ∈ allCommands.map encode
    simp [mem_allCommands, eq_comm]
  · refine .trans ?_ (and_mask_eq_packWord_iff rfl rfl rfl w 1).symm
    simp [encode, chunkedBit, urlSafeBit, lowerBit]
  · refine .trans ?_ (and_mask_eq_packWord_iff rfl rfl rfl w 5).symm
    simp [encode, chunkedBit, urlSafeBit, lowerBit]

/-- Settles O3: a spelling names its command, and the command's word decodes to it. -/
theorem spelledWordsDecode : Obligations.SpelledWordsDecode :=
  have word (i : Instr) : (commandOf (spelling i)).map encode = some (encode i) :=
    congrArg (Option.map encode) (commandOf_spelling i)
  ⟨word (.enc64 false false), decode_encode (.enc64 false false), word (.enc64 true false),
    decode_encode (.enc64 true false), word (.enc64 false true), decode_encode (.enc64 false true),
    word (.enc64 true true), decode_encode (.enc64 true true), word .enc64us, decode_encode .enc64us,
    word .dec64, decode_encode .dec64, word .isb64, decode_encode .isb64,
    word (.enchex false), decode_encode (.enchex false), word (.enchex true), decode_encode (.enchex true),
    word .dechex, decode_encode .dechex, by decide, fun _ => rfl⟩

end Sys2Proof.Proofs
end

section
/-! PROOFS of the family 30_encoding, continued: acceptance (30_encoding R76), the step that runs a command (R77),
and what its completion changes and depends on (R77, R78). -/

namespace Sys2Proof.Machine

open Sys2Proof.Claims

/-! ### The step that runs a command (30_encoding R77) -/

/-- At the engine's turn the step is the engine's, whether its slot is on the agenda or nothing is. -/
theorem step_of_engineTurn {s : State} (hc : s.configOk = true) (h : s.engineTurn) :
    step s = engineStep s.slotTaken := by
  obtain ⟨hb, ha | ⟨rest, ha⟩⟩ := h
  · rw [step_of_nil hc ha, engineSlot_busy hb, State.slotTaken_of_nil ha]
  · rw [step_of_cons hc ha]
    exact engineSlot_busy hb

/-- A legal word in CMD is the command the engine runs. -/
theorem engineStep_of_decode {s : State} {i : Instr} (h : decode s.cmd = .ok i) : engineStep s = exec i s := by
  simp [engineStep, State.fetch, h]

/-- A word that `withFetchWord` places whole is accepted, with the engine's slot next. -/
theorem State.withFetchWord_toNat (s : State) (w : Word) :
    s.withFetchWord 32 w.toNat = { s.accept w with agenda := .engine :: s.agenda } := by
  rw [State.withFetchWord, Nat.mod_eq_of_lt w.isLt, BitVec.ofNat_toNat, BitVec.setWidth_eq]

/-! ### What a result depends on (30_encoding R77) -/

/-- The input is the bytes below IN_LEN. -/
theorem State.input_congr {s t : State} (hlen : t.inLen = s.inLen)
    (hin : ∀ i < s.inLen.toNat, t.inByte i = s.inByte i) : t.input = s.input := by
  simp only [State.input, hlen]
  exact List.map_congr_left fun i hi => hin i (List.mem_range.mp hi)

end Sys2Proof.Machine

namespace Sys2Proof.Proofs

open Sys2Proof.Machine Sys2Proof.Claims

/-- Settles O7: at the engine's turn the step is the engine's, and the engine runs what CMD decodes to. -/
theorem stepRunsDecodedCommand : Obligations.StepRunsDecodedCommand := by
  have runs (s : State) (i : Instr) (hc : s.configOk = true) (hturn : s.engineTurn) (hcmd : decode s.cmd = .ok i) :
      step s = exec i s.slotTaken :=
    (step_of_engineTurn hc hturn).trans (engineStep_of_decode hcmd)
  refine ⟨runs, fun s i hc => ?_⟩
  rw [State.withFetchWord_toNat]
  exact runs { s.accept (encode i) with agenda := .engine :: s.agenda } i hc ⟨rfl, .inr ⟨s.agenda, rfl⟩⟩
    (decode_encode i)

/-- Settles O14: the access's effect on CMD in each phase. -/
theorem commandWriteIsAcceptedWhenIdle : Obligations.CommandWriteIsAcceptedWhenIdle := by
  intro s id v rest hc ha
  have hstep : step s = .next (s.slotTaken.writeCmd v) := step_of_accessing_admitted ⟨hc, rest, ha⟩ rfl
  constructor
  · intro hb
    rw [hstep, State.writeCmd_idle (s := s.slotTaken) hb, ← State.slotTaken_of_cons ha]
    rfl
  · intro hb
    rw [hstep, State.writeCmd_busy (s := s.slotTaken) hb, ← State.slotTaken_of_cons ha]
    rfl

/-- Settles O32: a command ends in one completion (`exec_cases`), and every completion stays within the frame. -/
theorem everyCommandCompletesWithinItsFrame : Obligations.EveryCommandCompletesWithinItsFrame := by
  intro i s
  rcases exec_cases i s with ⟨c, hc, h⟩ | ⟨o, r, h⟩
  · exact ⟨_, h, s.completeWith_frame (.error c), rfl, rfl, by simp [hc], fun _ => ⟨rfl, rfl⟩⟩
  · exact ⟨_, h, s.completeWith_frame (.ok (o, r)), rfl, rfl, by simp, by simp⟩

/-- Settles O36: the two blocks have the same result pending, and what a completion shows depends on it alone. -/
theorem resultDependsOnlyOnWordAndInput : Obligations.ResultDependsOnlyOnWordAndInput := by
  intro s s' t t' _ _ hcmd hlen hcap hin ht ht'
  cases (engineStep_eq_completeWith s).symm.trans ht
  cases (engineStep_eq_completeWith s').symm.trans ht'
  have hresult : s'.pendingResult = s.pendingResult := by
    simp only [State.pendingResult, hcmd, hlen, hcap, State.input_congr hlen hin]
  rw [hresult]
  exact s.completeWith_visible s' _

end Sys2Proof.Proofs
end

section
/-! PROOFS of the family 30_encoding, continued: the accesses of a `ws` line (30_encoding R80,
70_reset_and_hazards R215). -/

namespace Sys2Proof.Machine

open Sys2Proof.Claims

/-! ### A text written to a buffer -/

/-- Defines the bytes of a text at the indices from `k` on. -/
def Memory.writeFrom (m : Memory) : Nat → List Byte → Memory
  | _, [] => m
  | k, b :: text => (Memory.write m k b).writeFrom (k + 1) text

/-- Below the text's first index nothing is written. -/
theorem Memory.read_writeFrom_below (text : List Byte) (m : Memory) {k j : Nat} (h : j < k) :
    Memory.read (m.writeFrom k text) j = Memory.read m j := by
  induction text generalizing m k with
  | nil => rfl
  | cons b text ih =>
    rw [Memory.writeFrom, ih _ (Nat.lt_succ_of_lt h), Memory.read_write_other m b (Nat.ne_of_lt h)]

/-- From the text's first index on, the text's bytes are read, and beyond it what was there before. -/
theorem Memory.read_writeFrom (text : List Byte) (m : Memory) (k i : Nat) :
    Memory.read (m.writeFrom k text) (k + i) = text[i]?.or (Memory.read m (k + i)) := by
  induction text generalizing m k i with
  | nil => simp [Memory.writeFrom]
  | cons b text ih =>
    rw [Memory.writeFrom]
    cases i with
    | zero => simp [Memory.read_writeFrom_below text _ (Nat.lt_succ_self k), Memory.read_write_same]
    | succ i =>
      rw [show k + (i + 1) = (k + 1) + i by omega, ih, Memory.read_write_other m b (by omega)]
      simp

/-- The block once IN_BUF holds the text from index `k` on. -/
def State.textWritten (s : State) (k : Nat) (text : List Byte) : State := { s with inBuf := s.inBuf.writeFrom k text }

theorem State.textWritten_inByte (s : State) (text : List Byte) (i : Nat) :
    (s.textWritten 0 text).inByte i = text[i]?.getD (s.inByte i) := by
  have hread : Memory.read (s.inBuf.writeFrom 0 text) i = text[i]?.or (Memory.read s.inBuf i) := by
    simpa using Memory.read_writeFrom text s.inBuf 0 i
  unfold State.inByte State.textWritten
  rw [hread]
  cases text[i]? <;> rfl

/-! ### The run of a `ws` line -/

theorem step_of_writeInLen_idle {s : State} {id : Nat} {v : Word} (h : Accessing s id (.regWrite 0x08 v))
    (hb : s.status.busy = false) : step s = .next { s.slotTaken with inLen := v } := by
  rw [step_of_accessing_admitted h rfl, accessEffect_write_inLen, State.writeInLen_idle (s := s.slotTaken) hb]

theorem step_of_inWrite_idle {s : State} {id i : Nat} {b : Byte} (h : Accessing s id (.inWrite i b))
    (hi : i < s.inCap.toNat) (hb : s.status.busy = false) : step s = .next (s.slotTaken.textWritten i [b]) := by
  rw [step_of_inDomain h hi, accessEffect, State.inWritten_idle (s := s.slotTaken) hb]
  rfl

/-- An idle block takes every write of a text that fits IN_CAP. -/
theorem core_run_writeText {id : Nat} {rest : List Event} (n : Nat) (text : List Byte) {k : Nat} {s : State}
    (hc : s.configOk = true) (hb : s.status.busy = false) (hfit : k + text.length ≤ s.inCap.toNat)
    (ha : s.agenda = (writeText k text).map (Event.host id) ++ rest) :
    core.run (text.length + n) s = core.run n { s.textWritten k text with agenda := rest } := by
  induction text generalizing k s with
  | nil =>
    have hs : s = { s with agenda := rest } := by rw [← show s.agenda = rest from ha]
    simp only [List.length_nil, Nat.zero_add]
    exact congrArg (core.run n) hs
  | cons b text ih =>
    simp only [List.length_cons] at hfit ⊢
    have hstep : step s = .next (s.slotTaken.textWritten k [b]) :=
      step_of_inWrite_idle ⟨hc, _, ha⟩ (by omega) hb
    have hfit' : k + 1 + text.length ≤ s.inCap.toNat := by omega
    have hrest : s.agenda.tail = (writeText (k + 1) text).map (Event.host id) ++ rest := by
      rw [ha]
      rfl
    rw [Nat.add_right_comm, core_run_succ hstep]
    exact ih (s := s.slotTaken.textWritten k [b]) hc hb hfit' hrest

/-- The accesses of `ws text` put the text in IN_BUF and its length in IN_LEN. -/
theorem core_run_ws {id : Nat} {text : List Byte} {rest : List Event} {s : State} (hc : s.configOk = true)
    (hb : s.status.busy = false) (hfit : text.length ≤ s.inCap.toNat)
    (ha : s.agenda = scriptEvents id [.ws text] ++ rest) :
    core.run (text.length + 1) s =
      .next { s.textWritten 0 text with inLen := BitVec.ofNat 32 text.length, agenda := rest } := by
  have ha' : s.agenda = (writeText 0 text).map (Event.host id) ++
      .host id (.regWrite 0x08 (BitVec.ofNat 32 text.length)) :: rest := by
    simpa [scriptEvents, expandLine, regOffset] using ha
  rw [core_run_writeText 1 text hc hb (by omega) ha']
  exact core_run_one (step_of_writeInLen_idle ⟨hc, rest, rfl⟩ hb)

end Sys2Proof.Machine

namespace Sys2Proof.Proofs

open Sys2Proof.Machine Sys2Proof.Claims

/-- Settles O39: the state after the line's accesses is written out by `core_run_ws`, and its input is the text. -/
theorem writtenTextBecomesTheInput : Obligations.WrittenTextBecomesTheInput := by
  intro s id text rest hc hb hfit ha
  have hlen : (BitVec.ofNat 32 text.length).toNat = text.length :=
    Nat.mod_eq_of_lt (hfit.trans_lt s.inCap.isLt)
  refine ⟨_, core_run_ws hc hb hfit ha, ?_, rfl, rfl, rfl, rfl, rfl, rfl, fun _ => rfl, fun j hj => ?_, rfl⟩
  · apply List.ext_getElem
    · simp [hlen]
    · intro i _ hi
      simp only [State.input, List.getElem_map, List.getElem_range]
      exact (s.textWritten_inByte text i).trans (by simp [hi])
  · exact (s.textWritten_inByte text j).trans (by simp [hj])

end Sys2Proof.Proofs
end

section
/-! PROOFS of the family 40_base64: how a command on an input in range ends, for any command, and the text of ENC64: its
padding, its lines and its lengths (40_base64 R100 to R106). -/

namespace Sys2Proof.Machine

open Sys2Proof.Claims

/-! ### The end of a command on an input in range (30_encoding R78, 60_exceptions R183) -/

/-- A success completion is what the statements call a success, when OUT_LEN can count its output. -/
theorem State.complete_succeedsWith (s : State) {o : List Byte} (h : o.length < 2 ^ 32) (r : Bool) :
    SucceedsWith s (s.complete o r) o r := by
  have hmod : o.length % 2 ^ 32 = o.length := Nat.mod_eq_of_lt h
  refine ⟨?_, hmod, rfl, rfl, rfl, rfl, rfl, fun i hi => ?_, s.completeWith_frame (.ok (o, r))⟩
  · rw [State.complete_output, hmod, List.take_length]
  · rw [State.complete_outByte, List.getElem?_eq_none hi, Option.getD_none]

theorem State.raise_failsWith (s : State) (c : ErrCode) : FailsWith s (s.raise c) c :=
  ⟨rfl, rfl, rfl, rfl, rfl, rfl, fun _ => rfl, s.completeWith_frame (.error c)⟩

theorem exec_succeedsWith {s : State} {i : Instr} {o : List Byte} {r : Bool} (h : Ready s)
    (hres : commandResult i s.input = .ok (o, r)) : ∃ t, exec i s = .next t ∧ SucceedsWith s t o r := by
  obtain ⟨hc, hr⟩ := h
  have hlen : o.length < 2 ^ 32 := (commandResult_fits hc hr hres).trans_lt s.outCap.isLt
  exact ⟨s.complete o r, by rw [exec_inRange hr, hres, State.completeWith_ok], s.complete_succeedsWith hlen r⟩

theorem exec_failsWith {s : State} {i : Instr} {c : ErrCode} (h : Ready s)
    (hres : commandResult i s.input = .error c) : ∃ t, exec i s = .next t ∧ FailsWith s t c :=
  ⟨s.raise c, by rw [exec_inRange h.2, hres, State.completeWith_error], s.raise_failsWith c⟩

theorem exec_dec64_succeedsWith {s : State} {o : List Byte} (h : Ready s) (hres : dec64Result s.input = .ok o) :
    ∃ t, exec .dec64 s = .next t ∧ SucceedsWith s t o false :=
  exec_succeedsWith h (by rw [commandResult, hres]; rfl)

theorem exec_dec64_failsWith {s : State} {c : ErrCode} (h : Ready s) (hres : dec64Result s.input = .error c) :
    ∃ t, exec .dec64 s = .next t ∧ FailsWith s t c :=
  exec_failsWith h (by rw [commandResult, hres]; rfl)

theorem State.input_eq_nil {s : State} (h : s.inLen = 0) : s.input = [] := by
  simp [State.input, h]

/-! ### Characters and padding (10_state R35, R38; 40_base64 R101) -/

theorem b64Val_padByte : b64Val padByte = none := by decide

theorem b64Val_isSome_ne_padByte {c : Byte} (h : (b64Val c).isSome = true) : c ≠ padByte := by
  rintro rfl
  simp [b64Val_padByte] at h

/-- B64VAL gives back the value of a character of either alphabet. -/
theorem b64Val_b64Alphabet (u : Bool) (v : BitVec 6) : b64Val (b64Alphabet u v) = some v := by
  rw [Proofs.b64ValInvertsBothAlphabets]
  cases u with
  | true => exact .inr rfl
  | false => exact .inl rfl

theorem inAlphabets_map (u : Bool) (vs : List (BitVec 6)) : InAlphabets (vs.map (b64Alphabet u)) := by
  intro c hc
  obtain ⟨v, -, rfl⟩ := List.mem_map.mp hc
  rw [b64Val_b64Alphabet, Option.isSome_some]

theorem padByte_notMem {data : List Byte} (h : InAlphabets data) : padByte ∉ data :=
  fun hmem => b64Val_isSome_ne_padByte (h _ hmem) rfl

theorem eq_padByte_of_mem_pads {p : Nat} {c : Byte} (h : c ∈ pads p) : c = padByte := List.eq_of_mem_replicate h

@[simp] theorem pads_length (p : Nat) : (pads p).length = p := List.length_replicate

/-- As many padding characters as the final partial quantum lacks bytes. -/
theorem padFmt_eq_pads {r : Nat} (h : r < 3) : padFmt r = pads ((3 - r) % 3) := by
  interval_cases r <;> rfl

/-- How many padding characters end the text of `n` bytes (40_base64 R101, R102). -/
def padCount (u : Bool) (n : Nat) : Nat := if u then 0 else (3 - n % 3) % 3

theorem enc64Text_unchunked (u : Bool) (input : List Byte) : enc64Text false u input = enc64Line u input := rfl

theorem enc64Text_chunked (u : Bool) (input : List Byte) : enc64Text true u input = chunk (enc64Line u input) := rfl

/-- Unchunked text is the characters of the groups and then padding. -/
theorem enc64Line_eq (u : Bool) (input : List Byte) :
    enc64Line u input = (b64Groups input).map (b64Alphabet u) ++ pads (padCount u input.length) := by
  cases u with
  | true => rfl
  | false => exact congrArg _ (padFmt_eq_pads (Nat.mod_lt _ (by decide)))

/-! ### Line breaks (40_base64 R103, R107) -/

theorem stripLb_append (x y : List Byte) : stripLb (x ++ y) = stripLb x ++ stripLb y :=
  List.filter_append x y

theorem stripLb_lineSep : stripLb lineSep = [] := by decide

theorem isLineBreak_padByte : isLineBreak padByte = false := by decide

theorem isLineBreak_eq_false_of_b64Val {c : Byte} (h : (b64Val c).isSome = true) : isLineBreak c = false := by
  by_contra hc
  simp only [isLineBreak, Bool.not_eq_false, Bool.or_eq_true, beq_iff_eq] at hc
  rcases hc with rfl | rfl <;> exact absurd h (by decide)

/-- Text with no line break in it stays as it is. -/
theorem stripLb_data_pads {data : List Byte} (h : InAlphabets data) (p : Nat) :
    stripLb (data ++ pads p) = data ++ pads p := by
  refine List.filter_eq_self.mpr fun c hc => ?_
  rcases List.mem_append.mp hc with hc | hc
  · rw [isLineBreak_eq_false_of_b64Val (h c hc), Bool.not_false]
  · rw [eq_padByte_of_mem_pads hc, isLineBreak_padByte, Bool.not_false]

theorem mem_stripLb {c : Byte} {t : List Byte} (h : isLineBreak c = false) : c ∈ stripLb t ↔ c ∈ t := by
  simp [stripLb, h]

/-- Line `k` of chunked text, without its CR LF (40_base64 R103). -/
def textLine (t : List Byte) (k : Nat) : List Byte := slice t (lineLen * k) (min (lineLen * k + lineLen) t.length)

theorem textLine_length (t : List Byte) (k : Nat) : (textLine t k).length = min 76 (t.length - 76 * k) := by
  rw [textLine, slice_length, lineLen]
  omega

/-- The first `m` lines are the first `76 * m` characters. -/
theorem textLines_flatten (t : List Byte) (m : Nat) :
    ((List.range m).map (textLine t)).flatten = t.take (76 * m) := by
  induction m with
  | zero => rfl
  | succ m ih =>
    have htake : t.take (min (76 * m + 76) t.length) = t.take (76 * m + 76) := by
      rw [← List.take_take, List.take_length]
    rw [List.range_succ, List.map_append, List.flatten_append, ih, List.map_singleton, List.flatten_singleton, textLine,
      slice, lineLen, htake, List.drop_take, Nat.add_sub_cancel_left, Nat.mul_succ, List.take_add]

theorem chunk_eq_textLines (t : List Byte) :
    chunk t = ((List.range (ceilDiv t.length 76)).map (textLine t)).flatMap (fun line => line ++ lineSep) := by
  rw [chunk_eq_lines, List.flatMap_map]
  rfl

/-- Removing the line breaks undoes the separators. -/
theorem stripLb_flatMap_lineSep (lines : List (List Byte)) :
    stripLb (lines.flatMap (fun line => line ++ lineSep)) = stripLb lines.flatten := by
  induction lines with
  | nil => rfl
  | cons line lines ih =>
    rw [List.flatMap_cons, List.flatten_cons, stripLb_append, stripLb_append, stripLb_append, ih, stripLb_lineSep,
      List.append_nil]

/-- The decoder sees the text that was chunked. -/
theorem stripLb_chunk (t : List Byte) : stripLb (chunk t) = stripLb t := by
  rw [chunk_eq_textLines, stripLb_flatMap_lineSep, textLines_flatten, List.take_of_length_le]
  rw [ceilDiv]
  omega

/-- What the decoder sees of any text of ENC64, chunked or not: the characters of the groups and the padding. -/
theorem stripLb_enc64Text (c u : Bool) (input : List Byte) :
    stripLb (enc64Text c u input) =
      (b64Groups input).map (b64Alphabet u) ++ pads (padCount u input.length) := by
  have hline : stripLb (enc64Line u input) =
      (b64Groups input).map (b64Alphabet u) ++ pads (padCount u input.length) := by
    rw [enc64Line_eq, stripLb_data_pads (inAlphabets_map u _)]
  cases c with
  | true => rw [enc64Text_chunked, stripLb_chunk, hline]
  | false => rw [enc64Text_unchunked, hline]

end Sys2Proof.Machine

namespace Sys2Proof.Proofs

open Sys2Proof.Machine Sys2Proof.Claims

/-- Settles O41: the command's result is the text, and OUT_BUF has room for it. -/
theorem enc64CompletesWithItsText : Obligations.Enc64CompletesWithItsText := by
  intro c u s hready
  obtain ⟨t, ht, hok⟩ := exec_succeedsWith (i := .enc64 c u) hready rfl
  refine ⟨t, ht, hok, fun hempty => ?_⟩
  obtain ⟨-, hlen, -⟩ := hok
  rw [State.input_eq_nil hempty] at hlen
  refine BitVec.eq_of_toNat_eq (hlen.trans ?_)
  cases c <;> cases u <;> rfl

/-- Settles O43: the three paddings are closed, and the padded length is four for each quantum. -/
theorem paddingCompletesTheQuantum : Obligations.PaddingCompletesTheQuantum := by
  refine ⟨rfl, rfl, rfl, fun input => ?_, fun input => rfl⟩
  have hlen : (enc64Text false false input).length = 4 * ceilDiv input.length 3 := enc64Line_length_padded input
  rw [hlen, Nat.mul_mod_right]

/-- Settles O44: a padding character would survive the removal of line breaks, which leaves only alphabet characters. -/
theorem urlSafeTextNeverPads : Obligations.UrlSafeTextNeverPads := by
  intro input
  have hstrip (c : Bool) : stripLb (enc64Text c true input) = (b64Groups input).map b64Url := by
    rw [stripLb_enc64Text]
    exact List.append_nil _
  refine ⟨enc64Line_length_unpadded input, fun c hmem => ?_, hstrip⟩
  rw [← mem_stripLb isLineBreak_padByte, hstrip] at hmem
  exact padByte_notMem (inAlphabets_map true _) hmem

/-- Settles O45: the lines are the `textLine`s, the last one apart. -/
theorem chunkedTextIsLinesOfSeventySix : Obligations.ChunkedTextIsLinesOfSeventySix := by
  refine ⟨rfl, fun t hne => ?_⟩
  obtain ⟨m, hm⟩ : ∃ m, ceilDiv t.length 76 = m + 1 := ⟨(t.length - 1) / 76, by
    have hpos := List.length_pos_iff.mpr hne
    rw [ceilDiv]
    omega⟩
  have hfit : 76 * m < t.length ∧ t.length ≤ 76 * (m + 1) := by
    rw [ceilDiv] at hm
    omega
  have hlines : (List.range (m + 1)).map (textLine t) = (List.range m).map (textLine t) ++ [textLine t m] := by
    rw [List.range_succ, List.map_append, List.map_singleton]
  refine ⟨(List.range m).map (textLine t), textLine t m, ?_, ?_, fun line hline => ?_, ?_⟩
  · rw [← hlines, ← hm]
    exact chunk_eq_textLines t
  · rw [← List.flatten_singleton (l := textLine t m), ← List.flatten_append, ← hlines, textLines_flatten,
      List.take_of_length_le hfit.2]
  · obtain ⟨k, hk, rfl⟩ := List.mem_map.mp hline
    have hk := List.mem_range.mp hk
    rw [textLine_length]
    omega
  · rw [textLine_length]
    omega

/-- Settles O46: both commands have the same result on every input, and one word decodes to ENC64US. -/
theorem enc64usIsUrlSafeEnc64 : Obligations.Enc64usIsUrlSafeEnc64 :=
  ⟨fun _ => rfl, enc64CompletesWithItsText false true, rfl, fun _ h => (decode_eq_ok_iff _ _).mp h⟩

/-- Settles O47: the unchunked lengths are known, and chunking adds a separator for each line. -/
theorem encoderOutputLengths : Obligations.EncoderOutputLengths := by
  refine ⟨fun input => ?_, fun s hready => ?_⟩
  · have hpadded := enc64Line_length_padded input
    have hunpadded := enc64Line_length_unpadded input
    refine ⟨hpadded, hunpadded, ?_, ?_, ?_⟩
    · rw [enc64Text_chunked, chunk_length, hpadded]
    · rw [enc64Text_chunked, chunk_length, hunpadded]
    · simp only [ceilDiv]
      omega
  · obtain ⟨t, ht, ⟨-, hlen, -⟩, -⟩ := enc64CompletesWithItsText false true s hready
    have htext : (enc64Text false true s.input).length = ceilDiv (4 * s.input.length) 3 :=
      enc64Line_length_unpadded s.input
    rw [State.input_length] at htext
    exact ⟨t, ht, hlen.trans htext⟩

end Sys2Proof.Proofs
end

section
/-! PROOFS of the family 40_base64, continued: bytes and 6-bit values as two ways to cut one bit string (20_memory R56;
40_base64 R100, R108, R109). Encoding keeps the bit string; decoding keeps as much of it as fills whole bytes. -/

namespace Sys2Proof.Machine

open Sys2Proof.Claims

/-! ### The bit string of a sequence of words, most significant bit first (20_memory R56) -/

/-- Bit `j` of the words' bit string, with zero bits after the end. -/
def bitAt {w : Nat} (xs : List (BitVec w)) (j : Nat) : Bool := (xs[j / w]?.getD 0).getMsbD (j % w)

theorem bitAt_mul_add {w : Nat} (xs : List (BitVec w)) (k : Nat) {b : Nat} (hb : b < w) :
    bitAt xs (w * k + b) = (xs[k]?.getD 0).getMsbD b := by
  have hdiv : (w * k + b) / w = k := by
    rw [Nat.mul_add_div (Nat.zero_lt_of_lt hb), Nat.div_eq_of_lt hb, Nat.add_zero]
  rw [bitAt, hdiv, Nat.mul_add_mod, Nat.mod_eq_of_lt hb]

theorem bitAt_append {w : Nat} (hw : 0 < w) (xs ys : List (BitVec w)) (j : Nat) :
    bitAt (xs ++ ys) j = if j < w * xs.length then bitAt xs j else bitAt ys (j - w * xs.length) := by
  simp only [bitAt]
  split_ifs with h
  · rw [List.getElem?_append_left ((Nat.div_lt_iff_lt_mul hw).mpr (by rwa [Nat.mul_comm]))]
  · have hj : w * xs.length ≤ j := Nat.le_of_not_lt h
    rw [List.getElem?_append_right ((Nat.le_div_iff_mul_le hw).mpr (by rwa [Nat.mul_comm])), Nat.sub_mul_div,
      Nat.sub_mul_mod hj]

/-- After the end there are zero bits. -/
theorem bitAt_of_ge {w : Nat} {xs : List (BitVec w)} {j : Nat} (h : w * xs.length ≤ j) : bitAt xs j = false := by
  rcases Nat.eq_zero_or_pos w with rfl | hw
  · exact BitVec.getMsbD_of_ge _ _ (Nat.zero_le _)
  · have hindex : xs.length ≤ j / w := (Nat.le_div_iff_mul_le hw).mpr (by rwa [Nat.mul_comm])
    rw [bitAt, List.getElem?_eq_none hindex]
    exact BitVec.getMsbD_zero

/-- The first `n` words have the first `w * n` bits. -/
theorem bitAt_take {w n j : Nat} (h : j < w * n) (xs : List (BitVec w)) : bitAt (xs.take n) j = bitAt xs j := by
  rw [bitAt, bitAt, List.getElem?_take_of_lt (Nat.div_lt_of_lt_mul h)]

/-- Zero words at the end do not show: the bit string has zero bits there anyway. -/
theorem bitAt_append_zero {w : Nat} (xs : List (BitVec w)) (j : Nat) : bitAt (xs ++ [0]) j = bitAt xs j := by
  have hget : ((xs ++ [0])[j / w]?).getD 0 = (xs[j / w]?).getD 0 := by
    rcases Nat.lt_trichotomy (j / w) xs.length with h | h | h
    · rw [List.getElem?_append_left h]
    · simp [h]
    · rw [List.getElem?_eq_none (by simpa using h), List.getElem?_eq_none h.le]
  rw [bitAt, bitAt, hget]

/-- As many words with the same bits are the same words. -/
theorem eq_of_bitAt {w : Nat} {xs ys : List (BitVec w)} (hlen : xs.length = ys.length)
    (h : ∀ j < w * xs.length, bitAt xs j = bitAt ys j) : xs = ys := by
  refine List.ext_getElem hlen fun k hx hy => BitVec.eq_of_getMsbD_eq fun b hb => ?_
  have hj : w * k + b < w * xs.length :=
    calc w * k + b < w * k + w := Nat.add_lt_add_left hb _
      _ = w * (k + 1) := (Nat.mul_succ w k).symm
      _ ≤ w * xs.length := Nat.mul_le_mul_left w hx
  have hbit := h _ hj
  rw [bitAt_mul_add _ _ hb, bitAt_mul_add _ _ hb] at hbit
  simpa [hx, hy] using hbit

/-- The bit string of the input, as the statements write it. -/
theorem bitOfBytes_eq_bitAt (input : List Byte) (j : Nat) : bitOfBytes input j = bitAt input j := by
  have hlt : j % 8 < 8 := Nat.mod_lt _ (by decide)
  simp [bitOfBytes, bitAt, BitVec.getMsbD, hlt]

/-! ### Text and its values (10_state R35, 40_base64 R108) -/

theorem filterMap_b64Val_getElem? {data : List Byte} (h : InAlphabets data) (i : Nat) :
    (data.filterMap b64Val)[i]? = data[i]?.bind b64Val := by
  induction data generalizing i with
  | nil => rfl
  | cons c data ih =>
    obtain ⟨v, hv⟩ := Option.isSome_iff_exists.mp (h c List.mem_cons_self)
    rw [List.filterMap_cons_some hv]
    cases i with
    | zero => simp [hv]
    | succ i => simpa using ih (fun d hd => h d (List.mem_cons_of_mem _ hd)) i

theorem filterMap_b64Val_length {data : List Byte} (h : InAlphabets data) :
    (data.filterMap b64Val).length = data.length :=
  List.filterMap_length_eq_length.mpr h

theorem filterMap_b64Val_map (u : Bool) (vs : List (BitVec 6)) :
    (vs.map (b64Alphabet u)).filterMap b64Val = vs := by
  rw [List.filterMap_map, show b64Val ∘ b64Alphabet u = some from funext (b64Val_b64Alphabet u), List.filterMap_some]

/-- The bit string of text in an alphabet is that of its values. -/
theorem bitOfText_eq_bitAt {data : List Byte} (h : InAlphabets data) (j : Nat) :
    bitOfText data j = bitAt (data.filterMap b64Val) j := by
  have hlt : j % 6 < 6 := Nat.mod_lt _ (by decide)
  simp [bitOfText, bitAt, filterMap_b64Val_getElem? h, BitVec.getMsbD, hlt]

/-! ### One quantum: 24 bits as three bytes and as four values (40_base64 R100) -/

/-- The three bytes of 24 bits, from the most significant end. -/
def octets (v : BitVec 24) : List Byte := [v.extractLsb' 16 8, v.extractLsb' 8 8, v.extractLsb' 0 8]

theorem bitAt_sextets (v : BitVec 24) (j : Nat) : bitAt (sextets v) j = v.getMsbD j := by
  by_cases h : j < 24
  · interval_cases j <;> simp [bitAt, sextets, BitVec.getMsbD]
  · have hge : 24 ≤ j := Nat.le_of_not_lt h
    rw [bitAt_of_ge hge, BitVec.getMsbD_of_ge _ _ hge]

theorem bitAt_octets (v : BitVec 24) (j : Nat) : bitAt (octets v) j = v.getMsbD j := by
  by_cases h : j < 24
  · interval_cases j <;> simp [bitAt, octets, BitVec.getMsbD]
  · have hge : 24 ≤ j := Nat.le_of_not_lt h
    rw [bitAt_of_ge hge, BitVec.getMsbD_of_ge _ _ hge]

/-- A whole quantum in front has the same bits either way. -/
theorem bitAt_quantum_append (v : BitVec 24) {vs : List (BitVec 6)} {bs : List Byte} {j : Nat}
    (h : 24 ≤ j → bitAt vs (j - 24) = bitAt bs (j - 24)) : bitAt (sextets v ++ vs) j = bitAt (octets v ++ bs) j := by
  have hvs : 6 * (sextets v).length = 24 := rfl
  have hbs : 8 * (octets v).length = 24 := rfl
  rw [bitAt_append (by decide), bitAt_append (by decide), bitAt_sextets, bitAt_octets, hvs, hbs]
  by_cases hj : j < 24
  · rw [if_pos hj, if_pos hj]
  · rw [if_neg hj, if_neg hj]
    exact h (Nat.le_of_not_lt hj)

/-- Three bytes side by side are cut into the same bytes. -/
theorem octets_append (a b c : Byte) : octets (a ++ b ++ c) = [a, b, c] := by
  simp only [octets, BitVec.extractLsb'_append_eq_ite]
  simp [BitVec.extractLsb'_eq_self]

/-- Four values side by side are cut into the same values. -/
theorem sextets_append (a b c d : BitVec 6) : sextets (a ++ b ++ c ++ d) = [a, b, c, d] := by
  simp only [sextets, BitVec.extractLsb'_append_eq_ite]
  simp [BitVec.extractLsb'_eq_self]

/-! ### A final partial quantum is a whole one filled with zeros (40_base64 R100, R109) -/

theorem octets_of_one (a : Byte) : octets (a ++ (0 : BitVec 16)) = [a] ++ [0] ++ [0] := by
  simp only [octets, BitVec.extractLsb'_append_eq_ite]
  simp [BitVec.extractLsb'_eq_self]

theorem sextets_of_one (a : Byte) :
    sextets (a ++ (0 : BitVec 16)) = (sextets (a ++ (0 : BitVec 16))).take 2 ++ [0] ++ [0] := by
  simp only [sextets, BitVec.extractLsb'_append_eq_ite]
  simp

theorem sextets_of_two (a b : Byte) :
    sextets (a ++ b ++ (0 : Byte)) = (sextets (a ++ b ++ (0 : Byte))).take 3 ++ [0] := by
  simp only [sextets, BitVec.extractLsb'_append_eq_ite]
  simp

theorem octets_take_one (a b : BitVec 6) :
    (octets (a ++ b ++ (0 : BitVec 6) ++ (0 : BitVec 6))).take 1 = [(a ++ b).extractLsb' 4 8] := by
  simp only [octets, BitVec.extractLsb'_append_eq_ite]
  simp

theorem octets_take_two (a b c : BitVec 6) :
    (octets (a ++ b ++ c ++ (0 : BitVec 6))).take 2 =
      [(a ++ b ++ c).extractLsb' 10 8, (a ++ b ++ c).extractLsb' 2 8] := by
  simp only [octets, BitVec.extractLsb'_append_eq_ite]
  simp

/-! ### Encoding and decoding keep the bit string -/

/-- The groups of any input have its bits: the values that a final partial quantum leaves out are zero. -/
theorem bitAt_b64Groups (input : List Byte) (j : Nat) : bitAt (b64Groups input) j = bitAt input j := by
  fun_induction b64Groups input generalizing j with
  | case1 a b c rest ih =>
    have hcut : a :: b :: c :: rest = octets (a ++ b ++ c) ++ rest := by rw [octets_append]; rfl
    rw [hcut]
    exact bitAt_quantum_append _ fun _ => ih _
  | case2 a b =>
    rw [← bitAt_append_zero, ← sextets_of_two, bitAt_sextets, ← bitAt_octets, octets_append]
    exact bitAt_append_zero [a, b] j
  | case3 a =>
    rw [← bitAt_append_zero, ← bitAt_append_zero, ← sextets_of_one, bitAt_sextets, ← bitAt_octets, octets_of_one,
      bitAt_append_zero, bitAt_append_zero]
  | case4 => simp [bitAt]

/-- The bytes of any values have their bits, as far as the bytes go. -/
theorem bitAt_b64Bytes (vs : List (BitVec 6)) : ∀ j < 8 * (b64Bytes vs).length, bitAt (b64Bytes vs) j = bitAt vs j := by
  fun_induction b64Bytes vs with
  | case1 a b c d rest v ih =>
    intro j hj
    have hcut : a :: b :: c :: d :: rest = sextets (a ++ b ++ c ++ d) ++ rest := by rw [sextets_append]; rfl
    rw [hcut]
    refine (bitAt_quantum_append _ fun h => (ih _ ?_).symm).symm
    simp only [List.length_cons] at hj
    omega
  | case2 a b c v =>
    intro j hj
    rw [← octets_take_two, bitAt_take (n := 2) hj, bitAt_octets, ← bitAt_sextets, sextets_append]
    exact bitAt_append_zero [a, b, c] j
  | case3 a b v =>
    intro j hj
    rw [← octets_take_one, bitAt_take (n := 1) hj, bitAt_octets, ← bitAt_sextets, sextets_append]
    exact (bitAt_append_zero [a, b, 0] j).trans (bitAt_append_zero [a, b] j)
  | case4 a => exact fun j hj => absurd hj (Nat.not_lt_zero j)
  | case5 => exact fun j hj => absurd hj (Nat.not_lt_zero j)

/-- Decoding the groups of any input gives the input back: as many bytes with the same bits (40_base64 R111). -/
theorem b64Bytes_b64Groups (input : List Byte) : b64Bytes (b64Groups input) = input := by
  refine eq_of_bitAt ?_ fun j hj => ?_
  · rw [b64Bytes_length, b64Groups_length, ceilDiv]
    omega
  · rw [bitAt_b64Bytes _ j hj, bitAt_b64Groups]

end Sys2Proof.Machine

namespace Sys2Proof.Proofs

open Sys2Proof.Machine Sys2Proof.Claims

/-- Settles O42: the groups have the input's bits, one character each, and only the padding follows. -/
theorem enc64TextSpellsTheBitString : Obligations.Enc64TextSpellsTheBitString := by
  intro u input
  have hchars : ((b64Groups input).map (b64Alphabet u)).length = ceilDiv (4 * input.length) 3 := by
    rw [List.length_map, b64Groups_length]
  rw [enc64Text_unchunked]
  refine ⟨fun k hk => ?_, fun k c hk hc => ?_, ?_⟩
  · have hk' : k < (b64Groups input).length := hk.trans_eq (b64Groups_length input).symm
    refine ⟨(b64Groups input)[k], ?_, fun b hb => ?_⟩
    · rw [enc64Line_eq, List.getElem?_append_left (hk.trans_eq hchars.symm), List.getElem?_map,
        List.getElem?_eq_getElem hk', Option.map_some]
    · rw [bitOfBytes_eq_bitAt, ← bitAt_b64Groups, bitAt_mul_add _ _ hb, List.getElem?_eq_getElem hk', Option.getD_some]
      simp [BitVec.getMsbD, hb]
  · rw [enc64Line_eq, List.getElem?_append_right (hchars.trans_le hk)] at hc
    exact eq_padByte_of_mem_pads (List.mem_of_getElem? hc)
  · cases u with
    | true => exact enc64Line_length_unpadded input
    | false => exact enc64Line_length_padded input

end Sys2Proof.Proofs
end

section
/-! PROOFS of the family 40_base64, continued: the checks of DEC64 (40_base64 R108), what passes them, and the round
trip (R111). -/

namespace Sys2Proof.Machine

open Sys2Proof.Claims

/-! ### The trailing pad run (00_scope R12) -/

theorem slice_dropPads (data : List Byte) (p : Nat) :
    slice (data ++ pads p) 0 ((data ++ pads p).length - p) = data := by
  simp [slice]

theorem exists_eq_append_padRun (t : List Byte) : ∃ data, t = data ++ pads (padRun t) := by
  have hrun : t.reverse.takeWhile (fun c => c == padByte) = pads (padRun t) :=
    List.eq_replicate_of_mem fun c hc => by simpa using List.mem_takeWhile_imp hc
  refine ⟨(t.reverse.dropWhile (fun c => c == padByte)).reverse, List.reverse_injective ?_⟩
  rw [List.reverse_append, List.reverse_reverse, pads, List.reverse_replicate, ← pads, ← hrun,
    List.takeWhile_append_dropWhile]

/-- Any text is what the decoder takes for its data, and the pad run. -/
theorem slice_append_padRun (t : List Byte) : slice t 0 (t.length - padRun t) ++ pads (padRun t) = t := by
  obtain ⟨data, ht⟩ := exists_eq_append_padRun t
  generalize padRun t = p at ht ⊢
  rw [ht, slice_dropPads]

/-- After data without padding the pad run is the padding. -/
theorem padRun_append_pads {data : List Byte} (h : padByte ∉ data) (p : Nat) : padRun (data ++ pads p) = p := by
  have hdata : data.reverse.takeWhile (fun c => c == padByte) = [] := by
    cases hrev : data.reverse with
    | nil => rfl
    | cons c rest =>
      have hc : c ≠ padByte := fun hc => h (List.mem_reverse.mp (by rw [hrev, hc]; exact List.mem_cons_self))
      simp [hc]
  rw [padRun, List.reverse_append, pads, List.reverse_replicate, List.takeWhile_append_of_pos (by simp), hdata]
  simp

/-! ### The checks, in their order (40_base64 R108) -/

/-- Check 2 looks for a character that is no padding and in no alphabet. -/
theorem any_foreign_iff (t : List Byte) :
    t.any (fun c => c != padByte && (b64Val c).isNone) = true ↔ ∃ c ∈ t, c ≠ padByte ∧ b64Val c = none := by
  simp

/-- Check 3a looks for padding before the pad run. -/
theorem any_padByte_iff (data : List Byte) : data.any (fun c => c == padByte) = true ↔ padByte ∈ data := by
  simp

theorem not_foreign {t : List Byte} (h : ∀ c ∈ t, c = padByte ∨ (b64Val c).isSome = true) :
    ¬∃ c ∈ t, c ≠ padByte ∧ b64Val c = none := by
  rintro ⟨c, hc, hpad, hval⟩
  exact (h c hc).elim hpad fun hsome => by simp [hval] at hsome

theorem data_pads_chars {data : List Byte} (h : InAlphabets data) (p : Nat) :
    ∀ c ∈ data ++ pads p, c = padByte ∨ (b64Val c).isSome = true :=
  fun c hc => (List.mem_append.mp hc).elim (fun hc => .inr (h c hc)) (fun hc => .inl (eq_padByte_of_mem_pads hc))

theorem dec64Stripped_invalidLength {t : List Byte} (h : t.length % 4 = 1) :
    dec64Stripped t = .error .invalidLength := by
  simp only [dec64Stripped, if_pos h]

theorem dec64Stripped_invalidCharacter {t : List Byte} (hlen : t.length % 4 ≠ 1)
    (h : ∃ c ∈ t, c ≠ padByte ∧ b64Val c = none) : dec64Stripped t = .error .invalidCharacter := by
  simp only [dec64Stripped, any_foreign_iff, if_neg hlen, if_pos h]

/-- Data in the alphabets and an allowed padding pass every check. -/
theorem dec64Stripped_of_decodable {data : List Byte} {p : Nat} (h : Decodable data p) :
    dec64Stripped (data ++ pads p) = .ok (b64Bytes (data.filterMap b64Val)) := by
  obtain ⟨hdata, hp⟩ := h
  have hnopad := padByte_notMem hdata
  have hlen : (data ++ pads p).length = data.length + p := by rw [List.length_append, pads_length]
  simp only [dec64Stripped, padRun_append_pads hnopad, slice_dropPads, any_foreign_iff, any_padByte_iff]
  rw [if_neg (by omega), if_neg (not_foreign (data_pads_chars hdata p)), if_neg hnopad, if_neg (by omega)]

/-- What passes checks 1 and 2 and has no accepted shape fails check 3. -/
theorem dec64Stripped_malformedPadding {t : List Byte} (hlen : t.length % 4 ≠ 1)
    (hchars : ∀ c ∈ t, c = padByte ∨ (b64Val c).isSome = true) (h : ¬∃ data p, t = data ++ pads p ∧ Decodable data p) :
    dec64Stripped t = .error .malformedPadding := by
  simp only [dec64Stripped, any_foreign_iff, any_padByte_iff]
  rw [if_neg hlen, if_neg (not_foreign hchars)]
  split_ifs with hpad hrun
  · rfl
  · rfl
  · have ht := slice_append_padRun t
    have hcount := congrArg List.length ht
    rw [List.length_append, pads_length] at hcount
    refine absurd ⟨_, _, ht.symm, fun c hc => ?_, ?_⟩ h
    · have hmem : c ∈ t := ht ▸ List.mem_append_left _ hc
      exact (hchars c hmem).resolve_left fun hceq => hpad (hceq ▸ hc)
    · omega

/-- Accepted text is data in the alphabets and an allowed padding, and its result is the data's bytes. -/
theorem decodable_of_dec64Stripped_ok {t o : List Byte} (h : dec64Stripped t = .ok o) :
    ∃ data p, t = data ++ pads p ∧ Decodable data p ∧ o = b64Bytes (data.filterMap b64Val) := by
  by_cases hlen : t.length % 4 = 1
  · cases (dec64Stripped_invalidLength hlen).symm.trans h
  by_cases hforeign : ∃ c ∈ t, c ≠ padByte ∧ b64Val c = none
  · cases (dec64Stripped_invalidCharacter hlen hforeign).symm.trans h
  have hchars : ∀ c ∈ t, c = padByte ∨ (b64Val c).isSome = true := fun c hc => by
    by_contra hno
    obtain ⟨hpad, hval⟩ := not_or.mp hno
    exact hforeign ⟨c, hc, hpad, by simpa using hval⟩
  by_cases hshape : ∃ data p, t = data ++ pads p ∧ Decodable data p
  · obtain ⟨data, p, rfl, hdec⟩ := hshape
    cases (dec64Stripped_of_decodable hdec).symm.trans h
    exact ⟨data, p, rfl, hdec, rfl⟩
  · cases (dec64Stripped_malformedPadding hlen hchars hshape).symm.trans h

/-- Padding before another character is in no text of the accepted shape. -/
theorem mem_data_of_pad_before {x y data : List Byte} {p : Nat} {c : Byte} (h : x ++ padByte :: y = data ++ pads p)
    (hc : c ∈ y) (hne : c ≠ padByte) : padByte ∈ data := by
  rcases List.append_eq_append_iff.mp h with ⟨mid, rfl, hmid⟩ | ⟨mid, -, hmid⟩
  · cases mid with
    | nil => exact absurd (eq_padByte_of_mem_pads (hmid ▸ List.mem_cons_of_mem _ hc)) hne
    | cons d mid =>
      obtain ⟨rfl, -⟩ := List.cons.inj hmid
      exact List.mem_append_right _ List.mem_cons_self
  · have hmem : c ∈ pads p := hmid ▸ List.mem_append_right _ (List.mem_cons_of_mem _ hc)
    exact absurd (eq_padByte_of_mem_pads hmem) hne

/-- The two ways check 3 names exclude the accepted shape. -/
theorem not_decodable_of_malformed {t : List Byte}
    (h : (∃ x c y, t = x ++ padByte :: y ∧ c ∈ y ∧ c ≠ padByte) ∨
      (∃ data p, t = data ++ pads p ∧ InAlphabets data ∧ 1 ≤ p ∧ (2 < p ∨ t.length % 4 ≠ 0))) :
    ¬∃ data p, t = data ++ pads p ∧ Decodable data p := by
  rintro ⟨data, p, ht, hdata, hp⟩
  have hnopad := padByte_notMem hdata
  rcases h with ⟨x, c, y, ht', hc, hne⟩ | ⟨data', p', ht', hdata', hp'⟩
  · exact hnopad (mem_data_of_pad_before (ht'.symm.trans ht) hc hne)
  · have hsame : p' = p := by
      rw [← padRun_append_pads (padByte_notMem hdata') p', ← ht', ht, padRun_append_pads hnopad]
    have hlen : t.length = data.length + p := by rw [ht, List.length_append, pads_length]
    omega

/-! ### Results of DEC64 -/

theorem dec64Result_of_decodable {data : List Byte} {p : Nat} (h : Decodable data p) :
    dec64Result (data ++ pads p) = .ok (b64Bytes (data.filterMap b64Val)) := by
  rw [dec64Result, stripLb_data_pads h.1, dec64Stripped_of_decodable h]

/-- The groups' characters and the formatter's padding are what the decoder accepts (40_base64 R101, R102). -/
theorem decodable_b64Groups (u : Bool) (input : List Byte) :
    Decodable ((b64Groups input).map (b64Alphabet u)) (padCount u input.length) := by
  refine ⟨inAlphabets_map u _, ?_⟩
  rw [List.length_map, b64Groups_length, padCount, ceilDiv]
  cases u with
  | true => exact .inl ⟨rfl, by omega⟩
  | false =>
    have hcases : input.length % 3 = 0 ∨ input.length % 3 = 1 ∨ input.length % 3 = 2 := by omega
    rw [if_neg Bool.false_ne_true]
    rcases hcases with hr | hr | hr <;> rw [hr] <;> omega

/-- DEC64 of any text of ENC64, chunked or not, gives the input back (40_base64 R111). -/
theorem dec64Result_enc64Text (c u : Bool) (input : List Byte) : dec64Result (enc64Text c u input) = .ok input := by
  rw [dec64Result, stripLb_enc64Text, dec64Stripped_of_decodable (decodable_b64Groups u input), filterMap_b64Val_map,
    b64Bytes_b64Groups]

/-- Bits beyond the last whole byte do not matter (40_base64 R109). -/
theorem b64Bytes_congr {vs vs' : List (BitVec 6)} (hlen : vs.length = vs'.length)
    (h : ∀ j < 8 * (3 * vs.length / 4), bitAt vs j = bitAt vs' j) : b64Bytes vs = b64Bytes vs' := by
  have hbytes : (b64Bytes vs).length = (b64Bytes vs').length := by rw [b64Bytes_length, b64Bytes_length, hlen]
  refine eq_of_bitAt hbytes fun j hj => ?_
  rw [bitAt_b64Bytes vs j hj, bitAt_b64Bytes vs' j (hbytes ▸ hj), h j (by rwa [← b64Bytes_length])]

/-- Values with the same `len` bits on top agree on them. -/
theorem getMsbD_eq_of_extract {v v' : BitVec 6} {start len i : Nat} (hsum : start + len = 6)
    (h : v.extractLsb' start len = v'.extractLsb' start len) (hi : i < len) : v.getMsbD i = v'.getMsbD i := by
  have hpos : 6 - (6 - i) = i := by omega
  simpa [BitVec.getMsbD_extractLsb', hi, hpos, hsum] using congrArg (fun x => x.getMsbD i) h

/-- Changing the last value beyond its first `len` bits changes no bit before them. -/
theorem bitAt_last_congr {v v' : BitVec 6} {start len j : Nat} (vs : List (BitVec 6)) (hsum : start + len = 6)
    (h : v.extractLsb' start len = v'.extractLsb' start len) (hj : j < 6 * vs.length + len) :
    bitAt (vs ++ [v]) j = bitAt (vs ++ [v']) j := by
  rw [bitAt_append (by decide), bitAt_append (by decide)]
  split_ifs with hlt
  · rfl
  · have hi : j - 6 * vs.length < len := by omega
    have hsix : j - 6 * vs.length < 6 := by omega
    have hbit := getMsbD_eq_of_extract hsum h hi
    simpa [bitAt, Nat.div_eq_of_lt hsix, Nat.mod_eq_of_lt hsix] using hbit

end Sys2Proof.Machine

namespace Sys2Proof.Proofs

open Sys2Proof.Machine Sys2Proof.Claims

/-- Settles O48: the text passes the checks, and the bytes of its values have its bits. -/
theorem dec64CompletesWithTheBitString : Obligations.Dec64CompletesWithTheBitString := by
  intro s data p hready htext hdec
  have hdata : InAlphabets data := hdec.1
  have hres : dec64Result s.input = .ok (b64Bytes (data.filterMap b64Val)) := by
    rw [dec64Result, htext, dec64Stripped_of_decodable hdec]
  obtain ⟨t, ht, hok⟩ := exec_dec64_succeedsWith hready hres
  refine ⟨_, t, ht, hok, ?_, fun k hk b hb => ?_⟩
  · rw [b64Bytes_length, filterMap_b64Val_length hdata]
  · have hj : 8 * k + b < 8 * (b64Bytes (data.filterMap b64Val)).length := by omega
    rw [bitOfText_eq_bitAt hdata, ← bitAt_b64Bytes _ _ hj, bitAt_mul_add _ _ hb]
    simp [BitVec.getMsbD, hb]

/-- Settles O49: one lemma for each check, and the third's two ways exclude the accepted shape. -/
theorem dec64ErrorsInOrder : Obligations.Dec64ErrorsInOrder :=
  fun _ hready =>
    ⟨fun hlen => exec_dec64_failsWith hready (dec64Stripped_invalidLength hlen),
      fun hlen hforeign => exec_dec64_failsWith hready (dec64Stripped_invalidCharacter hlen hforeign),
      fun hlen hchars hmalformed => exec_dec64_failsWith hready
        (dec64Stripped_malformedPadding hlen hchars (not_decodable_of_malformed hmalformed))⟩

/-- Settles O50: the two texts agree on every bit of a whole byte; the rule's examples are closed. -/
theorem droppedBitsNeverMatter : Obligations.DroppedBitsNeverMatter := by
  refine ⟨fun data c c' v v' p hv hv' hdec hbits => ?_, rfl, rfl⟩
  obtain ⟨hdata, hp⟩ := hdec
  have hfront : InAlphabets data := fun d hd => hdata d (List.mem_append_left _ hd)
  have hlen := filterMap_b64Val_length hfront
  have hdec' : Decodable (data ++ [c']) p := by
    refine ⟨fun d hd => ?_, by simpa using hp⟩
    rcases List.mem_append.mp hd with hd | hd
    · exact hfront d hd
    · rw [List.mem_singleton.mp hd, hv', Option.isSome_some]
  have hres := dec64Result_of_decodable ⟨hdata, hp⟩
  refine ⟨⟨_, hres⟩, ?_⟩
  rw [hres, dec64Result_of_decodable hdec']
  simp only [List.filterMap_append, List.filterMap_cons_some hv, List.filterMap_cons_some hv', List.filterMap_nil]
  refine congrArg Except.ok (b64Bytes_congr (by simp) fun j hj => ?_)
  rw [List.length_append, List.length_singleton, hlen] at hj
  rcases hbits with ⟨hrem, htop⟩ | ⟨hrem, htop⟩
  · exact bitAt_last_congr _ rfl htop.symm (by omega)
  · exact bitAt_last_congr _ rfl htop.symm (by omega)

/-- Settles O51: accepted text is data and padding, and three bytes come from four values. -/
theorem decoderOutputLength : Obligations.DecoderOutputLength := by
  intro input o h
  obtain ⟨data, p, htext, ⟨hdata, hp⟩, rfl⟩ := decodable_of_dec64Stripped_ok h
  have hd : (stripLb input).length - padRun (stripLb input) = data.length := by
    rw [htext, padRun_append_pads (padByte_notMem hdata), List.length_append, pads_length, Nat.add_sub_cancel]
  have hbytes : (b64Bytes (data.filterMap b64Val)).length = 3 * data.length / 4 := by
    rw [b64Bytes_length, filterMap_b64Val_length hdata]
  have hrem : data.length % 4 ≠ 1 := by omega
  have hle := dec64Result_length_le h
  simp only [hd]
  refine ⟨hrem, ?_, ?_, ?_, hbytes, hle⟩ <;> omega

/-- Settles O52: the output of ENC64 is its text, and DEC64 of that text is the input. -/
theorem base64RoundTrip : Obligations.Base64RoundTrip := by
  refine ⟨fun c u s t s' hready ht hready' hinput => ?_, fun c u b y hy => ?_, dec64Result_enc64Text⟩
  · obtain ⟨t', ht', ⟨hout, -⟩, -⟩ := enc64CompletesWithItsText c u s hready
    cases ht.symm.trans ht'
    exact exec_dec64_succeedsWith hready' (by rw [hinput, hout, dec64Result_enc64Text])
  · cases (dec64Result_enc64Text c u b).symm.trans hy
    rfl

end Sys2Proof.Proofs
end

section
/-! PROOFS of the family 41_hex: ENCHEX spells the nibbles of its input, DECHEX joins the values of its digits in
pairs, and each undoes the other (41_hex R140 to R143). -/

namespace Sys2Proof.Machine

open Sys2Proof.Claims

/-! ### Digits and their values (10_state R36, R37) -/

/-- HEXVAL gives back the value of a digit of either case. -/
theorem hexVal_hexDigit (l : Bool) (v : BitVec 4) : hexVal (hexDigit l v) = some v := by
  rw [Proofs.hexValInvertsBothDigitTables]
  cases l with
  | true => exact .inl rfl
  | false => exact .inr rfl

/-- Folding a hex digit to lower case gives HEX_LO of its value. -/
theorem hexLo_of_hexVal {c : Byte} {v : BitVec 4} (h : hexVal c = some v) : hexLo v = foldLower c := by
  rcases (Proofs.hexValInvertsBothDigitTables c v).mp h with rfl | rfl <;> revert v <;> decide

/-- Folding a hex digit to upper case gives HEX_UP of its value. -/
theorem hexUp_of_hexVal {c : Byte} {v : BitVec 4} (h : hexVal c = some v) : hexUp v = foldUpper c := by
  rcases (Proofs.hexValInvertsBothDigitTables c v).mp h with rfl | rfl <;> revert v <;> decide

/-- Every character of a text is a hex digit. -/
def HexDigits (text : List Byte) : Prop := ∀ c ∈ text, (hexVal c).isSome = true

/-- The value of a hex digit; of no use for any other byte. -/
def digitValue (c : Byte) : BitVec 4 := (hexVal c).getD 0

theorem hexVal_eq_digitValue {c : Byte} (h : (hexVal c).isSome = true) : hexVal c = some (digitValue c) := by
  obtain ⟨v, hv⟩ := Option.isSome_iff_exists.mp h
  rw [digitValue, hv, Option.getD_some]

/-- HEXVAL drops no hex digit. -/
theorem filterMap_hexVal_of_hexDigits {text : List Byte} (h : HexDigits text) :
    text.filterMap hexVal = text.map digitValue :=
  List.filterMap_eq_map_iff_forall_eq_some.mpr fun c hc => hexVal_eq_digitValue (h c hc)

theorem hexDigits_map (l : Bool) (vs : List (BitVec 4)) : HexDigits (vs.map (hexDigit l)) := by
  intro c hc
  obtain ⟨v, -, rfl⟩ := List.mem_map.mp hc
  rw [hexVal_hexDigit, Option.isSome_some]

theorem digitValue_hexDigit (l : Bool) (v : BitVec 4) : digitValue (hexDigit l v) = v := by
  rw [digitValue, hexVal_hexDigit, Option.getD_some]

theorem map_digitValue_map_hexDigit (l : Bool) (vs : List (BitVec 4)) : (vs.map (hexDigit l)).map digitValue = vs :=
  List.map_map.trans (List.map_id'' (digitValue_hexDigit l) vs)

/-- A function that agrees with `g` on the values of hex digits maps their text as `g` maps their values. -/
theorem map_map_digitValue {g : BitVec 4 → Byte} {f : Byte → Byte} (hgf : ∀ {c v}, hexVal c = some v → g v = f c)
    {text : List Byte} (h : HexDigits text) : (text.map digitValue).map g = text.map f := by
  rw [List.map_map]
  exact List.map_congr_left fun c hc => hgf (hexVal_eq_digitValue (h c hc))

/-! ### Bytes and their nibbles (41_hex R140) -/

/-- The nibbles of a byte sequence, the high one of each byte first. -/
def nibbles (input : List Byte) : List (BitVec 4) := input.flatMap fun b => [b.extractLsb' 4 4, b.extractLsb' 0 4]

theorem nibbles_cons (b : Byte) (input : List Byte) :
    nibbles (b :: input) = b.extractLsb' 4 4 :: b.extractLsb' 0 4 :: nibbles input := rfl

/-- ENCHEX spells the nibbles, one digit each. -/
theorem encHexText_eq_map_nibbles (l : Bool) (input : List Byte) :
    encHexText l input = (nibbles input).map (hexDigit l) := by
  rw [encHexText, nibbles, List.map_flatMap]
  rfl

theorem nibbles_getElem? (input : List Byte) (k : Nat) :
    (nibbles input)[2 * k]? = input[k]?.map (·.extractLsb' 4 4) ∧
    (nibbles input)[2 * k + 1]? = input[k]?.map (·.extractLsb' 0 4) := by
  induction input generalizing k with
  | nil => exact ⟨rfl, rfl⟩
  | cons b input ih =>
    cases k with
    | zero => exact ⟨rfl, rfl⟩
    | succ k => exact ih k

/-- Byte `k` joins the nibbles at `2k` and `2k + 1`, the first the high one (41_hex R142). -/
theorem hexBytes_getElem? {vs : List (BitVec 4)} {k : Nat} {hi lo : BitVec 4} (hhi : vs[2 * k]? = some hi)
    (hlo : vs[2 * k + 1]? = some lo) : (hexBytes vs)[k]? = some (hi ++ lo) := by
  induction vs using hexBytes.induct generalizing k with
  | case1 a b rest ih =>
    cases k with
    | zero =>
      cases hhi
      cases hlo
      rfl
    | succ k => exact ih hhi hlo
  | case2 a => simp at hlo
  | case3 => simp at hlo

/-- Joining the nibbles of a byte sequence gives it back. -/
theorem hexBytes_nibbles (input : List Byte) : hexBytes (nibbles input) = input := by
  induction input with
  | nil => rfl
  | cons b input ih =>
    have hb : b.extractLsb' 4 4 ++ b.extractLsb' 0 4 = b :=
      (BitVec.extractLsb'_append_extractLsb'_eq_extractLsb' rfl).trans BitVec.extractLsb'_eq_self
    rw [nibbles_cons, hexBytes, ih, hb]

/-- Cutting the joined bytes of an even number of nibbles gives them back. -/
theorem nibbles_hexBytes {vs : List (BitVec 4)} (h : vs.length % 2 = 0) : nibbles (hexBytes vs) = vs := by
  induction vs using hexBytes.induct with
  | case1 a b rest ih =>
    have hrest : rest.length % 2 = 0 := by
      simp only [List.length_cons] at h
      omega
    rw [hexBytes, nibbles_cons, ih hrest, BitVec.extractLsb'_append_eq_left, BitVec.extractLsb'_append_eq_right]
  | case2 a => simp at h
  | case3 => rfl

/-! ### The checks of DECHEX, in their order (41_hex R142) -/

theorem decHexResult_invalidLength {input : List Byte} (h : input.length % 2 = 1) :
    decHexResult input = .error .invalidLength :=
  if_pos h

theorem decHexResult_invalidCharacter {input : List Byte} (hlen : input.length % 2 = 0)
    (h : ∃ c ∈ input, hexVal c = none) : decHexResult input = .error .invalidCharacter := by
  have hany : input.any (fun c => (hexVal c).isNone) = true := by simpa using h
  rw [decHexResult, if_neg (by omega), if_pos hany]

theorem decHexResult_of_hexDigits {input : List Byte} (hlen : input.length % 2 = 0) (h : HexDigits input) :
    decHexResult input = .ok (hexBytes (input.map digitValue)) := by
  have hany : ¬ input.any (fun c => (hexVal c).isNone) = true := by
    simpa [HexDigits, Option.isSome_iff_ne_none] using h
  rw [decHexResult, if_neg (by omega), if_neg hany, filterMap_hexVal_of_hexDigits h]

/-- DECHEX of any text of ENCHEX gives the input back (41_hex R143). -/
theorem decHexResult_encHexText (l : Bool) (input : List Byte) : decHexResult (encHexText l input) = .ok input := by
  have hlen : (encHexText l input).length % 2 = 0 := by rw [encHexText_length, Nat.mul_mod_right]
  rw [encHexText_eq_map_nibbles] at hlen ⊢
  rw [decHexResult_of_hexDigits hlen (hexDigits_map l _), map_digitValue_map_hexDigit, hexBytes_nibbles]

/-! ### The two commands on the block's input -/

theorem State.input_getElem? {s : State} {i : Nat} (h : i < s.inLen.toNat) : s.input[i]? = some (s.inByte i) := by
  simp [State.input, h]

theorem exec_dechex_succeedsWith {s : State} {o : List Byte} (h : Ready s) (hres : decHexResult s.input = .ok o) :
    ∃ t, exec .dechex s = .next t ∧ SucceedsWith s t o false :=
  exec_succeedsWith h (by rw [commandResult, hres]; rfl)

theorem exec_dechex_failsWith {s : State} {c : ErrCode} (h : Ready s) (hres : decHexResult s.input = .error c) :
    ∃ t, exec .dechex s = .next t ∧ FailsWith s t c :=
  exec_failsWith h (by rw [commandResult, hres]; rfl)

theorem hexDigits_input {s : State} (h : ∀ i < s.inLen.toNat, (hexVal (s.inByte i)).isSome = true) :
    HexDigits s.input := by
  simpa [HexDigits, State.input] using h

end Sys2Proof.Machine

namespace Sys2Proof.Proofs

open Sys2Proof.Machine Sys2Proof.Claims

/-- Settles O56: the text spells the nibbles of the input, which stand two for each byte. -/
theorem enchexCompletesWithTwoDigitsPerByte : Obligations.EnchexCompletesWithTwoDigitsPerByte := by
  intro l s hready
  obtain ⟨t, ht, hok⟩ := exec_succeedsWith (i := .enchex l) hready rfl
  refine ⟨_, t, ht, hok, by rw [encHexText_length, State.input_length], fun k hk => ?_⟩
  obtain ⟨hhi, hlo⟩ := nibbles_getElem? s.input k
  rw [State.input_getElem? hk] at hhi hlo
  rw [encHexText_eq_map_nibbles, List.getElem?_map, List.getElem?_map, hhi, hlo]
  exact ⟨rfl, rfl⟩

/-- Settles O57: every digit has a value at its own place, and byte `k` joins the values at `2k` and `2k + 1`. -/
theorem dechexCompletesWithOneBytePerPair : Obligations.DechexCompletesWithOneBytePerPair := by
  intro s hready heven hdigits
  have hres := decHexResult_of_hexDigits (by rwa [State.input_length]) (hexDigits_input hdigits)
  obtain ⟨t, ht, hok⟩ := exec_dechex_succeedsWith hready hres
  have hlen : (hexBytes (s.input.map digitValue)).length = s.inLen.toNat / 2 := by
    rw [hexBytes_length, List.length_map, State.input_length]
  have hvalue {i : Nat} (hi : i < s.inLen.toNat) :
      (s.input.map digitValue)[i]? = some (digitValue (s.inByte i)) := by
    rw [List.getElem?_map, State.input_getElem? hi, Option.map_some]
  refine ⟨_, t, ht, hok, hlen, fun k hk => ?_⟩
  have hfirst : 2 * k < s.inLen.toNat := by omega
  have hsecond : 2 * k + 1 < s.inLen.toNat := by omega
  exact ⟨_, _, hexVal_eq_digitValue (hdigits _ hfirst), hexVal_eq_digitValue (hdigits _ hsecond),
    hexBytes_getElem? (hvalue hfirst) (hvalue hsecond)⟩

/-- Settles O58: one lemma for each check. -/
theorem dechexErrorsInOrder : Obligations.DechexErrorsInOrder := by
  refine fun s hready => ⟨fun hodd => ?_, fun heven ⟨i, hi, hnone⟩ => ?_⟩
  · exact exec_dechex_failsWith hready (decHexResult_invalidLength (by rwa [State.input_length]))
  · have hmem : s.inByte i ∈ s.input := List.mem_of_getElem? (State.input_getElem? hi)
    exact exec_dechex_failsWith hready
      (decHexResult_invalidCharacter (by rwa [State.input_length]) ⟨_, hmem, hnone⟩)

/-- Settles O59: ENCHEX spells nibbles and DECHEX joins their values, and cutting and joining undo each other. -/
theorem hexRoundTrip : Obligations.HexRoundTrip := by
  refine ⟨decHexResult_encHexText, fun l s t s' hready ht hready' hinput => ?_, fun input heven hdigits => ?_⟩
  · obtain ⟨t', ht', ⟨hout, -⟩⟩ := exec_succeedsWith (i := .enchex l) hready rfl
    cases ht.symm.trans ht'
    exact exec_dechex_succeedsWith hready' (by rw [hinput, hout, decHexResult_encHexText])
  · have hres := decHexResult_of_hexDigits heven hdigits
    have htext (l : Bool) :
        encHexText l (hexBytes (input.map digitValue)) = (input.map digitValue).map (hexDigit l) := by
      rw [encHexText_eq_map_nibbles, nibbles_hexBytes (by rwa [List.length_map])]
    refine ⟨_, hres, by rw [hexBytes_length, List.length_map], ?_, ?_⟩
    · exact (htext true).trans (map_map_digitValue hexLo_of_hexVal hdigits)
    · exact (htext false).trans (map_map_digitValue hexUp_of_hexVal hdigits)

end Sys2Proof.Proofs
end

section
/-! PROOFS of the family 42_sniffer: the predicate of ISB64 as a shape of text, and what the decoder accepts has that shape
(42_sniffer R160 to R163). -/

namespace Sys2Proof.Machine

open Sys2Proof.Claims

/-! ### The predicate (42_sniffer R161) -/

theorem isb64Stripped_iff_padRun (t : List Byte) :
    isb64Stripped t = true ↔
      InAlphabets (slice t 0 (t.length - padRun t)) ∧ (padRun t = 0 ∨ t.length % 4 = 0) := by
  simp [isb64Stripped, InAlphabets, Nat.pos_iff_ne_zero, or_iff_not_imp_left]

/-- Data in the alphabets leaves the pad run no choice, so the predicate is about any such cut of the text. -/
theorem isb64Stripped_iff (t : List Byte) :
    isb64Stripped t = true ↔
      ∃ data p, t = data ++ pads p ∧ InAlphabets data ∧ (p = 0 ∨ t.length % 4 = 0) := by
  rw [isb64Stripped_iff_padRun]
  constructor
  · rintro ⟨hdata, hp⟩
    exact ⟨_, _, (slice_append_padRun t).symm, hdata, hp⟩
  · rintro ⟨data, p, rfl, hdata, hp⟩
    rw [padRun_append_pads (padByte_notMem hdata), slice_dropPads]
    exact ⟨hdata, hp⟩

/-! ### Whitespace and line breaks (42_sniffer R160, R163) -/

theorem isWhitespace_padByte : isWhitespace padByte = false := by decide

theorem isWhitespace_eq_false_of_b64Val {c : Byte} (h : (b64Val c).isSome = true) : isWhitespace c = false := by
  by_contra hc
  simp only [isWhitespace, Bool.not_eq_false, Bool.or_eq_true, beq_iff_eq] at hc
  rcases hc with ((rfl | rfl) | rfl) | rfl <;> exact absurd h (by decide)

theorem isWhitespace_of_isLineBreak {c : Byte} (h : isLineBreak c = true) : isWhitespace c = true := by
  simp only [isLineBreak, Bool.or_eq_true, beq_iff_eq] at h
  rcases h with rfl | rfl <;> decide

/-- Line breaks are whitespace, so removing them first changes nothing. -/
theorem stripWs_stripLb (input : List Byte) : stripWs (stripLb input) = stripWs input := by
  rw [stripWs, stripLb, List.filter_filter, stripWs]
  refine List.filter_congr fun c _ => ?_
  cases hlb : isLineBreak c with
  | false => simp
  | true => simp [isWhitespace_of_isLineBreak hlb]

theorem stripWs_data_pads {data : List Byte} (h : InAlphabets data) (p : Nat) :
    stripWs (data ++ pads p) = data ++ pads p := by
  refine List.filter_eq_self.mpr fun c hc => ?_
  rcases data_pads_chars h p c hc with rfl | hval
  · rw [isWhitespace_padByte, Bool.not_false]
  · rw [isWhitespace_eq_false_of_b64Val hval, Bool.not_false]

/-! ### The sniffer against the decoder (42_sniffer R163) -/

/-- A padding the decoder allows completes the length to a multiple of 4. -/
theorem isb64Stripped_of_decodable {data : List Byte} {p : Nat} (h : Decodable data p) :
    isb64Stripped (data ++ pads p) = true := by
  obtain ⟨hdata, hp⟩ := h
  refine (isb64Stripped_iff _).mpr ⟨data, p, rfl, hdata, ?_⟩
  rw [List.length_append, pads_length]
  omega

theorem isb64Result_of_dec64Result_ok {input o : List Byte} (h : dec64Result input = .ok o) :
    isb64Result input = true := by
  obtain ⟨data, p, htext, hdec, -⟩ := decodable_of_dec64Stripped_ok h
  rw [isb64Result, ← stripWs_stripLb, htext, stripWs_data_pads hdec.1, isb64Stripped_of_decodable hdec]

/-- A DEC64 that ends without an error had a result. -/
theorem dec64Result_ok_of_exec {s t : State} (h : Ready s) (ht : exec .dec64 s = .next t) (herr : t.status.err = false) :
    ∃ o, dec64Result s.input = .ok o := by
  cases hres : dec64Result s.input with
  | ok o => exact ⟨o, rfl⟩
  | error c =>
    obtain ⟨t', ht', -, -, -, hfail, -⟩ := exec_dec64_failsWith h hres
    cases ht.symm.trans ht'
    cases herr.symm.trans hfail

theorem exec_isb64_succeedsWith {s : State} (h : Ready s) :
    ∃ t, exec .isb64 s = .next t ∧ SucceedsWith s t [] (isb64Result s.input) :=
  exec_succeedsWith h rfl

end Sys2Proof.Machine

namespace Sys2Proof.Proofs

open Sys2Proof.Machine Sys2Proof.Claims

/-- Settles O53: RESULT is the predicate, and the predicate is the shape. -/
theorem isb64CompletesWithThePredicate : Obligations.Isb64CompletesWithThePredicate := by
  intro s hready
  obtain ⟨t, ht, hok⟩ := exec_isb64_succeedsWith hready
  exact ⟨t, _, ht, hok, isb64Stripped_iff _⟩

/-- Settles O54: without its line breaks the text has the decoder's shape, which holds no whitespace and is a shape of the
sniffer. -/
theorem snifferHasNoFalseNegatives : Obligations.SnifferHasNoFalseNegatives := by
  intro s t t' hready ht herr ht'
  obtain ⟨o, hres⟩ := dec64Result_ok_of_exec hready ht herr
  obtain ⟨u, hu, -, -, -, -, -, hresult, -⟩ := exec_isb64_succeedsWith hready
  cases ht'.symm.trans hu
  rw [hresult, isb64Result_of_dec64Result_ok hres]

/-- Settles O55: closed facts; the sniffer removes the space of the third text, the decoder counts it. -/
theorem snifferIsOnlyAdvisory : Obligations.SnifferIsOnlyAdvisory := by
  refine ⟨⟨by decide, by decide⟩, ⟨by decide, by decide⟩, by decide, fun o ho => ?_⟩
  have herr : dec64Result (ascii "TW E=") = .error .invalidLength := by decide
  cases herr.symm.trans ho

end Sys2Proof.Proofs
end

section
/-! PROOFS of the family 60_exceptions: which error a command reports (60_exceptions R181 to R186), and that an access is
the same whichever host performs it (R189). -/

namespace Sys2Proof.Machine

open Sys2Proof.Claims

/-! ### Illegal words (60_exceptions R181) -/

theorem legalWord_iff_decode (w : Word) : legalWord w = true ↔ ∃ i, decode w = .ok i := by
  simp only [legalWord_iff_encode, decode_eq_ok_iff]

/-- An illegal word completes with IllegalCommand: the engine looks at nothing but CMD. -/
theorem engineStep_of_illegal {s : State} (h : legalWord s.cmd = false) :
    engineStep s = .next (s.raise .illegalCommand) := by
  cases hd : decode s.cmd with
  | ok i => exact absurd ((legalWord_iff_decode s.cmd).mpr ⟨i, hd⟩) (by simp [h])
  | error e => simp [engineStep, State.fetch, hd]

/-! ### The code a completion reports (60_exceptions R180) -/

/-- The code of a result: 0 for an output, and otherwise the error's. -/
def resultCode {α : Type} : Except ErrCode α → ErrCode
  | .ok _ => .success
  | .error code => code

theorem resultCode_map {α β : Type} (f : α → β) (e : Except ErrCode α) : resultCode (e.map f) = resultCode e := by
  cases e <;> rfl

theorem State.completeWith_errCode (s : State) (e : Except ErrCode (List Byte × Bool)) :
    (s.completeWith e).status.errCode = resultCode e := by
  cases e <;> rfl

theorem exec_errCode {i : Instr} {s t : State} (hr : s.inLen.toNat ≤ s.inCap.toNat) (ht : exec i s = .next t) :
    t.status.errCode = resultCode (commandResult i s.input) := by
  cases (exec_inRange hr i).symm.trans ht
  exact s.completeWith_errCode _

theorem engineStep_errCode {i : Instr} {s t : State} (ht : engineStep s = .next t) (hcmd : decode s.cmd = .ok i)
    (hr : s.inLen.toNat ≤ s.inCap.toNat) : t.status.errCode = resultCode (commandResult i s.input) :=
  exec_errCode hr ((engineStep_of_decode hcmd).symm.trans ht)

theorem engineStep_dec64_errCode {s t : State} (ht : engineStep s = .next t) (hcmd : decode s.cmd = .ok .dec64)
    (hr : s.inLen.toNat ≤ s.inCap.toNat) : t.status.errCode = resultCode (dec64Result s.input) :=
  (engineStep_errCode ht hcmd hr).trans (resultCode_map _ _)

theorem engineStep_dechex_errCode {s t : State} (ht : engineStep s = .next t) (hcmd : decode s.cmd = .ok .dechex)
    (hr : s.inLen.toNat ≤ s.inCap.toNat) : t.status.errCode = resultCode (decHexResult s.input) :=
  (engineStep_errCode ht hcmd hr).trans (resultCode_map _ _)

theorem eq_error_of_map_eq_error {α β : Type} {f : α → β} {e : Except ErrCode α} {c : ErrCode}
    (h : e.map f = .error c) : e = .error c := by
  cases e <;> cases h
  rfl

/-! ### The errors of a command on an input in range (60_exceptions R184, R186) -/

/-- The errors of DEC64 are those of its three checks (40_base64 R108). -/
theorem dec64Result_error {input : List Byte} {c : ErrCode} (h : dec64Result input = .error c) :
    c = .invalidLength ∨ c = .invalidCharacter ∨ c = .malformedPadding := by
  simp only [dec64Result, dec64Stripped] at h
  split_ifs at h <;> cases h <;> simp

/-- The errors of DECHEX are those of its two checks (41_hex R142). -/
theorem decHexResult_error {input : List Byte} {c : ErrCode} (h : decHexResult input = .error c) :
    c = .invalidLength ∨ c = .invalidCharacter := by
  simp only [decHexResult] at h
  split_ifs at h <;> cases h <;> simp

/-- Only the two decoders have an error, and it is one of codes 1 to 3. -/
theorem commandResult_error {i : Instr} {input : List Byte} {c : ErrCode} (h : commandResult i input = .error c) :
    (i = .dec64 ∨ i = .dechex) ∧ (c = .invalidLength ∨ c = .invalidCharacter ∨ c = .malformedPadding) := by
  cases i with
  | enc64 | enc64us | isb64 | enchex => cases h
  | dec64 => exact ⟨.inl rfl, dec64Result_error (eq_error_of_map_eq_error h)⟩
  | dechex => exact ⟨.inr rfl, (decHexResult_error (eq_error_of_map_eq_error h)).imp_right .inl⟩

theorem resultCode_commandResult_ne_lengthRange (i : Instr) (input : List Byte) :
    resultCode (commandResult i input) ≠ .lengthRange := by
  cases hres : commandResult i input with
  | ok p => exact nofun
  | error c =>
    rintro (rfl : c = .lengthRange)
    rcases (commandResult_error hres).2 with h | h | h <;> cases h

/-! ### Accesses by several hosts (60_exceptions R189) -/

theorem State.regWritten_lastRead (s : State) (off : Nat) (v : Word) : (s.regWritten off v).lastRead = s.lastRead := by
  unfold State.regWritten State.writeCmd State.writeInLen
  split_ifs <;> rfl

/-- What an access does to the block, and the value it returns if it returns one, do not depend on the host. -/
theorem accessEffect_same_for_hosts (a : HostAccess) (s : State) :
    ∃ (u : State) (v : Option ReadValue), u.lastRead = s.lastRead ∧
      ∀ id, accessEffect id a s = v.elim u (u.returned id) := by
  cases a with
  | regRead off => exact ⟨s, some (.word (s.regValue off)), rfl, fun _ => rfl⟩
  | inRead i => exact ⟨s, some (.byte (s.inByte i)), rfl, fun _ => rfl⟩
  | outRead i =>
    cases hb : s.status.busy with
    | false => exact ⟨s, some (.byte (s.outByte i)), rfl, fun id => State.outReturned_idle hb id i⟩
    | true =>
      exact ⟨{ s with nextDraw := s.nextDraw + 1 }, some (.byte (Config.busyByte s.nextDraw)), rfl,
        fun id => State.outReturned_busy hb id i⟩
  | regWrite off v => exact ⟨s.regWritten off v, none, s.regWritten_lastRead off v, fun _ => rfl⟩
  | inWrite i b =>
    obtain ⟨-, -, -, -, -, -, hread⟩ := s.inWritten_frame i b
    exact ⟨s.inWritten i b, none, hread, fun _ => rfl⟩
  | regReadNarrow | regWriteNarrow | outWrite => exact ⟨s, none, rfl, fun _ => rfl⟩

/-- An access that has a next state was admitted, and the state is its effect. -/
theorem hostAccess_eq_next_iff {id : Nat} {a : HostAccess} {s t : State} :
    hostAccess id a s = .next t ↔ accessFault a s = none ∧ t = accessEffect id a s := by
  cases hf : accessFault a s with
  | none => simp [hostAccess_admitted hf, eq_comm]
  | some f => simp [hostAccess_notAdmitted hf]

end Sys2Proof.Machine

namespace Sys2Proof.Proofs

open Sys2Proof.Machine Sys2Proof.Claims

/-- Settles O8: at the engine's turn the step is the engine's, which raises IllegalCommand for an illegal word. -/
theorem illegalWordCompletesWithIllegalCommand : Obligations.IllegalWordCompletesWithIllegalCommand :=
  fun s hc hturn hcmd =>
    ⟨_, (step_of_engineTurn hc hturn).trans (engineStep_of_illegal (s := s.slotTaken) hcmd),
      s.slotTaken.raise_failsWith .illegalCommand⟩

/-- Settles O31: an engine step is a `raise` or a success completion, and ERR excludes the second. -/
theorem errorCompletionLeavesOnlyItsCode : Obligations.ErrorCompletionLeavesOnlyItsCode := by
  intro s t ht herr
  rcases engineStep_cases s with ⟨c, hc, h⟩ | ⟨o, r, h⟩
  · cases h.symm.trans ht
    exact ⟨hc, s.raise_failsWith c⟩
  · cases h.symm.trans ht
    cases herr

/-- Settles O33: the range check comes first, and no command's own result is LengthRange. -/
theorem inputBeyondCapacityIsLengthRange : Obligations.InputBeyondCapacityIsLengthRange := by
  refine ⟨fun i s h => ⟨_, exec_outOfRange h i, s.raise_failsWith .lengthRange⟩, fun i s t hr ht => ?_⟩
  rw [exec_errCode hr ht]
  exact resultCode_commandResult_ne_lengthRange i s.input

/-- Settles O34: a command in range completes with its own result, and only the decoders' can be an error. -/
theorem onlyDecodersCanFail : Obligations.OnlyDecodersCanFail := by
  intro i s t hr ht
  cases (exec_inRange hr i).symm.trans ht
  cases hres : commandResult i s.input with
  | ok p => exact ⟨fun _ _ => ⟨rfl, rfl⟩, by rintro (h | h | h) <;> cases h⟩
  | error c =>
    obtain ⟨hi, -⟩ := commandResult_error hres
    exact ⟨fun h64 hhex => absurd hi (not_or.mpr ⟨h64, hhex⟩), fun _ => hi⟩

/-- Settles O35: the engine checks the word, then the range, then runs the command, whose checks come in their order;
MalformedPadding is reported only where neither earlier check of DEC64 reports its own code. -/
theorem errorsAreReportedByPriority : Obligations.ErrorsAreReportedByPriority := by
  refine ⟨fun s t ht hcmd => ?_, fun s t ht hcmd hr => ?_, fun s t ht hcmd hr => ?_, fun s t ht hcmd hr => ?_,
    fun s t ht hr ⟨i, hcmd, h64, hhex⟩ => ?_, fun s t ht hcmd hr => ?_⟩
  · cases (engineStep_of_illegal hcmd).symm.trans ht
    rfl
  · obtain ⟨i, hi⟩ := (legalWord_iff_decode s.cmd).mp hcmd
    cases ((engineStep_of_decode hi).trans (exec_outOfRange hr i)).symm.trans ht
    rfl
  · have hcode := engineStep_dec64_errCode ht hcmd hr
    have hlength (h : (stripLb s.input).length % 4 = 1) : t.status.errCode = .invalidLength := by
      rw [hcode, dec64Result, dec64Stripped_invalidLength h, resultCode]
    have hcharacter (h : (stripLb s.input).length % 4 ≠ 1)
        (hforeign : ∃ c ∈ stripLb s.input, c ≠ padByte ∧ b64Val c = none) : t.status.errCode = .invalidCharacter := by
      rw [hcode, dec64Result, dec64Stripped_invalidCharacter h hforeign, resultCode]
    refine ⟨hlength, hcharacter, fun hpad => ?_⟩
    have hlen : (stripLb s.input).length % 4 ≠ 1 := fun h => by cases (hlength h).symm.trans hpad
    refine ⟨hlen, fun c hc => ?_⟩
    by_contra hno
    obtain ⟨hne, hval⟩ := not_or.mp hno
    cases (hcharacter hlen ⟨c, hc, hne, by simpa using hval⟩).symm.trans hpad
  · have hcode := engineStep_dechex_errCode ht hcmd hr
    refine ⟨fun h => ?_, fun h hforeign => ?_⟩
    · rw [hcode, decHexResult_invalidLength h, resultCode]
    · rw [hcode, decHexResult_invalidCharacter h hforeign, resultCode]
  · obtain ⟨hok, -⟩ := onlyDecodersCanFail i s t hr ((engineStep_of_decode hcmd).symm.trans ht)
    exact (hok h64 hhex).2
  · rw [engineStep_dec64_errCode ht hcmd hr]
    exact ⟨fun h => by rw [h]; decide, fun h => by rw [h]; decide⟩

/-- Settles O25: both hosts' accesses do the same to the block and return the same value, if any. -/
theorem everyHostHasTheSameEffect : Obligations.EveryHostHasTheSameEffect := by
  intro id id' a s t ht
  obtain ⟨hadm, rfl⟩ := hostAccess_eq_next_iff.mp ht
  refine ⟨_, hostAccess_admitted hadm id', ?_⟩
  obtain ⟨u, v, hu, heffect⟩ := accessEffect_same_for_hosts a s
  rw [heffect id, heffect id']
  cases v with
  | none => exact ⟨rfl, fun hne => absurd hu hne⟩
  | some v => exact ⟨rfl, fun _ => ⟨v, rfl, rfl⟩⟩

end Sys2Proof.Proofs
end

section
/-! PROOFS of the family 70_reset_and_hazards: what a reset leaves (70_reset_and_hazards R211 to R213), accesses while a
command is pending (R218, R219), and a command run by a host's script (R215). -/

namespace Sys2Proof.Machine

open Sys2Proof.Claims

/-! ### Writes while a command is pending (70_reset_and_hazards R218) -/

/-- While BUSY = 1 a write to CMD, IN_LEN or IN_BUF does nothing but set COLL. -/
theorem accessEffect_write_busy {s : State} (hb : s.status.busy = true) (id : Nat) {a : HostAccess}
    (ha : (∃ v, a = .regWrite 0x00 v) ∨ (∃ v, a = .regWrite 0x08 v) ∨ (∃ i b, a = .inWrite i b)) :
    accessEffect id a s = s.collide := by
  rcases ha with ⟨v, rfl⟩ | ⟨v, rfl⟩ | ⟨i, b, rfl⟩
  · exact State.writeCmd_busy hb v
  · exact State.writeInLen_busy hb v
  · exact State.inWritten_busy hb i b

/-- While BUSY = 1 no access clears COLL. -/
theorem accessEffect_busy_coll {s : State} (hb : s.status.busy = true) (hcoll : s.status.coll = true) (id : Nat)
    (a : HostAccess) : (accessEffect id a s).status.coll = true := by
  rcases accessEffect_cases id a s with
    heq | ⟨v, heq⟩ | ⟨v, heq⟩ | ⟨-, heq⟩ | ⟨hidle, -⟩ | ⟨hidle, -⟩ | ⟨hidle, -⟩
  -- nothing, a read, a read that draws
  case inl | inr.inl | inr.inr.inl =>
    rw [heq]
    exact hcoll
  -- a dropped write
  case inr.inr.inr.inl =>
    rw [heq]
    rfl
  -- the three writes an idle block takes
  all_goals simp [hb] at hidle

/-- An access that clears COLL is an accepted write to CMD. -/
theorem accessEffect_coll_cleared {s : State} {id : Nat} {a : HostAccess} (hset : s.status.coll = true)
    (hclear : (accessEffect id a s).status.coll = false) : s.status.busy = false ∧ ∃ v, a = .regWrite 0x00 v := by
  cases hb : s.status.busy with
  | true => simp [accessEffect_busy_coll hb hset id a] at hclear
  | false =>
    refine ⟨rfl, ?_⟩
    by_contra hno
    have hsame : s.SameResult (accessEffect id a s) := accessEffect_sameResult hb fun v h => hno ⟨v, h⟩
    simp [hsame.status, hset] at hclear

/-- A step that clears COLL is a reset or an accepted write to CMD: no completion touches COLL. -/
theorem step_coll_cleared {s t : State} (h : step s = .next t) (hset : s.status.coll = true)
    (hclear : t.status.coll = false) :
    (∃ rest, s.agenda = .reset :: rest) ∨
    (s.status.busy = false ∧ ∃ id v rest, s.agenda = .host id (.regWrite 0x00 v) :: rest) := by
  obtain ⟨-, ⟨-, -, hrun⟩ | ⟨-, -, rfl⟩ | ⟨rest, ha, -⟩ | ⟨id, a, rest, ha, -, rfl⟩⟩ := step_cases h
  · obtain ⟨-, -, -, -, -, hkept, -⟩ := engineStep_frame hrun
    simp [hkept, hset] at hclear
  · simp [hset] at hclear
  · exact .inl ⟨rest, ha⟩
  · obtain ⟨hb, v, rfl⟩ := accessEffect_coll_cleared (s := s.slotTaken) hset hclear
    exact .inr ⟨hb, id, v, rest, ha⟩

/-! ### Reads while a command is pending (70_reset_and_hazards R219) -/

/-- While BUSY = 1 only COLL is left open by the legal values of STATUS (10_state R24). -/
theorem Status.eq_accepted_of_legal {t : Status} (h : t.legal = true) (hb : t.busy = true) :
    t = { Status.accepted with coll := t.coll } := by
  simp only [Status.legal, hb, Bool.and_eq_true, Bool.not_true, Bool.false_or, Bool.not_eq_true', beq_iff_eq] at h
  obtain ⟨⟨herrCode, ⟨hdone, herr⟩, hresult⟩, -⟩ := h
  have hcode : t.errCode = .success := by simpa [herr] using herrCode
  cases t
  simp_all [Status.accepted]

theorem Status.toWord_accepted (coll : Bool) :
    ({ Status.accepted with coll := coll } : Status).toWord = if coll then 0x00000101 else 0x00000001 := by
  cases coll <;> decide

theorem Inv.toWord_busy {s : State} (h : Inv s) (hb : s.status.busy = true) :
    s.status.toWord = if s.status.coll then 0x00000101 else 0x00000001 := by
  rw [Status.eq_accepted_of_legal h.status hb]
  exact Status.toWord_accepted s.status.coll

/-! ### Reset (70_reset_and_hazards R210 to R213) -/

theorem step_of_reset {s : State} {rest : List Event} (hc : s.configOk = true) (ha : s.agenda = .reset :: rest) :
    step s = .next { s.resetBlock with agenda := rest } := by
  rw [step_of_cons hc ha, ← State.slotTaken_of_cons ha]
  rfl

/-- However many slots the engine is given, an idle block only uses them up (60_exceptions R194). -/
theorem core_run_engine_idle (n : Nat) {s : State} (hc : s.configOk = true) (hb : s.status.busy = false)
    (ha : s.agenda = List.replicate n .engine) : core.run n s = .next { s with agenda := [] } := by
  induction n generalizing s with
  | zero =>
    rw [← show s.agenda = [] from ha]
    rfl
  | succ n ih =>
    have hstep : step s = .next s.slotTaken := (step_of_cons hc ha).trans (engineSlot_idle (s := s.slotTaken) hb)
    rw [core_run_succ hstep]
    exact ih (s := s.slotTaken) hc hb (by rw [State.slotTaken_agenda, ha]; rfl)

/-! ### A command run by a host's script (70_reset_and_hazards R215) -/

/-- A run may be cut after any number of its steps. -/
theorem core_run_add {m : Nat} {s t : State} (h : core.run m s = .next t) (n : Nat) :
    core.run (m + n) s = core.run n t := by
  induction m generalizing s with
  | zero =>
    cases h
    rw [Nat.zero_add]
  | succ m ih =>
    obtain ⟨u, hu, hrun⟩ := step_of_core_run_succ h
    rw [Nat.add_right_comm, core_run_succ hu, ih hrun]

/-- A script's accesses come line by line. -/
theorem scriptEvents_cons (id : Nat) (line : ScriptLine) (lines : List ScriptLine) :
    scriptEvents id (line :: lines) = scriptEvents id [line] ++ scriptEvents id lines := by
  simp [scriptEvents]

theorem step_of_writeCmd_idle {s : State} {id : Nat} {v : Word} (h : Accessing s id (.regWrite 0x00 v))
    (hb : s.status.busy = false) : step s = .next (s.slotTaken.accept v) := by
  rw [step_of_accessing_admitted h rfl, accessEffect_write_cmd, State.writeCmd_idle (s := s.slotTaken) hb]

/-- An idle block takes a command's word, and the engine's slot then runs the command. -/
theorem core_run_command {s t : State} {id : Nat} {i : Instr} {rest : List Event} (hc : s.configOk = true)
    (hb : s.status.busy = false) (ha : s.agenda = .host id (.regWrite 0x00 (encode i)) :: .engine :: rest)
    (ht : exec i { s.accept (encode i) with agenda := rest } = .next t) : core.run 2 s = .next t := by
  have haccept : step s = .next { s.accept (encode i) with agenda := .engine :: rest } := by
    rw [step_of_writeCmd_idle ⟨hc, _, ha⟩ hb, ← State.slotTaken_of_cons ha]
    rfl
  obtain ⟨runs, -⟩ := Proofs.stepRunsDecodedCommand
  have hrun : step { s.accept (encode i) with agenda := .engine :: rest } =
      exec i { s.accept (encode i) with agenda := rest } :=
    runs _ i hc ⟨rfl, .inr ⟨rest, rfl⟩⟩ (decode_encode i)
  rw [core_run_succ haccept]
  exact core_run_one (hrun.trans ht)

/-- Without a result length there is no output. -/
theorem State.output_eq_nil {s : State} (h : s.outLen = 0) : s.output = [] := by
  simp [State.output, h]

/-- How a command on an input in range ends, whether its result is an output or an error. -/
theorem exec_ends {s : State} (h : Ready s) (i : Instr) :
    ∃ t, exec i s = .next t ∧ CompletionFrame s t ∧ t.status.busy = false ∧ t.status.done = true ∧
      (∀ o r, commandResult i s.input = .ok (o, r) →
        t.output = o ∧ t.status.result = r ∧ t.status.err = false ∧ t.status.errCode = .success) ∧
      (∀ c, commandResult i s.input = .error c → t.output = [] ∧ t.status.err = true ∧ t.status.errCode = c) := by
  cases hres : commandResult i s.input with
  | ok p =>
    obtain ⟨t, ht, hout, -, hbusy, hdone, herr, hresult, hcode, -, hframe⟩ := exec_succeedsWith h hres
    refine ⟨t, ht, hframe, hbusy, hdone, fun o r hp => ?_, nofun⟩
    cases hp
    exact ⟨hout, hresult, herr, hcode⟩
  | error c =>
    obtain ⟨t, ht, hlen, hbusy, hdone, herr, -, hcode, -, hframe⟩ := exec_failsWith h hres
    refine ⟨t, ht, hframe, hbusy, hdone, nofun, fun c' hc' => ?_⟩
    cases hc'
    exact ⟨State.output_eq_nil hlen, herr, hcode⟩

end Sys2Proof.Machine

namespace Sys2Proof.Proofs

open Sys2Proof.Machine Sys2Proof.Claims

/-- Settles O22: the three writes collide, every other register write is ignored, and COLL is cleared only as
`step_coll_cleared` says. -/
theorem writesWhileBusyAreDroppedAndSetColl : Obligations.WritesWhileBusyAreDroppedAndSetColl := by
  refine ⟨fun s id a h hd hb ha => ?_, fun s id off v h hd h0 h8 => ?_, fun s t => step_coll_cleared⟩
  · rw [step_of_inDomain h hd, accessEffect_write_busy (s := s.slotTaken) hb id ha]
    rfl
  · exact step_of_regWrite_ignored h ((regFault_eq_none_iff off).mpr hd) h0 h8

/-- Settles O23: each read returns what its place holds; the invariant fixes STATUS but for COLL, and OUT_LEN. -/
theorem readsWhileBusy : Obligations.ReadsWhileBusy := by
  intro s t id a hinv hb h ht
  have hreg (off : Nat) (ha : a = .regRead off) : t.lastRead = some (id, .word (s.regValue off)) := by
    subst ha
    exact lastRead_of_regRead h ht
  refine ⟨fun ha => ?_, fun ha => ?_, hreg 0x00, hreg 0x08, hreg 0x10, hreg 0x14, fun i ha => ?_, fun i ha => ?_⟩
  · rw [hreg 0x04 ha, State.regValue_status, hinv.toWord_busy hb]
  · rw [hreg 0x0C ha, State.regValue_outLen, hinv.busyLen hb]
  · subst ha
    rw [eq_accessEffect_of_step h ht]
    rfl
  · subst ha
    rw [eq_accessEffect_of_step h ht, accessEffect, State.outReturned_busy (s := s.slotTaken) hb]
    rfl

/-- Settles O26: the step is `resetBlock`, whose fields are the reset values. -/
theorem resetSetsRegistersAndDrawsBuffers : Obligations.ResetSetsRegistersAndDrawsBuffers := by
  intro s rest hc ha
  exact ⟨_, step_of_reset hc ha, rfl, Status.toWord_reset, rfl, rfl, rfl, rfl, rfl, s.resetBlock_inByte,
    s.resetBlock_outByte, rfl, rfl⟩

/-- Settles O27: the reset leaves an idle block, which engine slots do not change (`core_run_engine_idle`). -/
theorem resetAbandonsPendingCommand : Obligations.ResetAbandonsPendingCommand := by
  intro s n hc _ ha
  refine ⟨?_, s.resetBlock_status, s.resetBlock_outLen, s.resetBlock_outByte⟩
  rw [core_run_succ (step_of_reset hc ha)]
  exact core_run_engine_idle n (s := { s.resetBlock with agenda := List.replicate n .engine }) hc rfl rfl

/-- Settles O40: the script's first line makes the text the input (O39), its second starts the command, and the engine's
slot ends it with its result on that input. -/
theorem hostRunsACommandOnItsText : Obligations.HostRunsACommandOnItsText := by
  intro s id i text rest hc hb hfit ha
  have ha' : s.agenda = scriptEvents id [.ws text] ++ .host id (.regWrite 0x00 (encode i)) :: .engine :: rest := by
    rw [ha, scriptEvents_cons, List.append_assoc]
    rfl
  obtain ⟨(u : State), hws, hinput, hstatus, hagenda, -, hin, hout, -⟩ :=
    writtenTextBecomesTheInput s id text _ hc hb hfit ha'
  have huc : u.configOk = true := (State.configOk_congr hin hout).trans hc
  have hub : u.status.busy = false := by rw [hstatus, hb]
  have hrange : u.inLen.toNat ≤ u.inCap.toNat := by rwa [← State.input_length, hinput, hin]
  obtain ⟨t, ht, ⟨hcmd, -, -, -, -, hcoll, htail, -⟩, hbusy, hdone, hresult⟩ :=
    exec_ends (s := { u.accept (encode i) with agenda := rest }) ⟨huc, hrange⟩ i
  have hsame : ({ u.accept (encode i) with agenda := rest } : State).input = text := hinput
  rw [hsame] at hresult
  refine ⟨t, ?_, htail, hcmd, hbusy, hdone, hcoll, hresult⟩
  rw [show text.length + 3 = text.length + 1 + 2 from rfl, core_run_add hws]
  exact core_run_command huc hub hagenda ht

end Sys2Proof.Proofs
end
